-- ==== Sys2Proof/Word.lean ====
section
/-! DEFINITION. The word types: the byte, the 16-bit and 24-bit values, and the RawFrame value of rule R100. -/

namespace Sys2Proof

/-- A byte, 8 bits, bit 0 least significant (R6). -/
abbrev Byte := BitVec 8

/-- A 16-bit value: the accumulator `ACC` and every checksum (R14, R59). -/
abbrev Word16 := BitVec 16

/-- A 24-bit value: a message id (R57). -/
abbrev Word24 := BitVec 24

/-- A RawFrame value: an array of exactly 280 bytes, none of which need be valid (R100). The frame buffer `F` has the
same shape (R13). -/
structure RawFrame where
  /-- The bytes, index 0 first. -/
  bytes : List Byte
  /-- There are always 280 of them. -/
  size_eq : bytes.length = 280
  deriving DecidableEq, Repr

/-- The RawFrame value whose 280 bytes are all zero: what reinitialising `F` stores (R147, R170, decision D9). -/
def RawFrame.zero : RawFrame := ⟨List.replicate 280 0#8, List.length_replicate⟩

end Sys2Proof
end

