-- ==== Sys2Proof/Machine/Bytes.lean ====
section
/-! DEFINITION. Byte order: little-endian assembly of a byte sequence and its inverse (R7, R31). -/

namespace Sys2Proof.Machine

open Sys2Proof

/-- Little-endian assembly, `le16`, `le24` and `le48` of R7 according to the length of the sequence: the byte of the
lower index is the less significant. -/
def leNat : List Byte → Nat
  | [] => 0
  | b :: bs => b.toNat + 256 * leNat bs

/-- The `k` bytes of `v`, least significant first: `v[7:0]`, `v[15:8]`, and so on (R31, R127, R129). -/
def leBytes : Nat → Nat → List Byte
  | 0, _ => []
  | k + 1, v => BitVec.ofNat 8 v :: leBytes k (v / 256)

end Sys2Proof.Machine
end

