-- ==== Sys2Proof/Config.lean ====
section
/-! DEFINITION. The constants of rule R5, and the parameters of the block as constants without a body: the flag bits,
the seed table and the capacity of the stream buffer. -/

namespace Sys2Proof

namespace Config

/-! The sizes of R5 (`HEADER_SIZE` 10, `CHECKSUM_SIZE` 2, `SIGNATURE_SIZE` 13, `MAX_PAYLOAD` 255, `MAX_FRAME` 280) stand as
numbers where the rules use them, as the rules' pseudocode does. -/

/-- `MARKER`, the frame-start marker (R5, R51). -/
def marker : Byte := 0xFD#8

/-- `CRC_INIT_VALUE`, the start value of the checksum accumulator (R5). -/
def crcInitValue : Word16 := 0xFFFF#16

/-- The parameters of one build of the block (R5, R16, R222). The two constraints of R5 on the flag parameters (exactly
one signed bit; the signed bit is a supported bit) and the one on the capacity (at least 279, or unbounded) hold by the
way the fields are read: see `Params.iflagSigned`, `Params.supportedIflags` and `Params.capacity` in Machine/Flags.lean. -/
structure Params where
  /-- The position of the one bit of `IFLAG_SIGNED` (R5, D4). R5's default is bit 0: `IFLAG_SIGNED` is 0x01. -/
  signedBit : Fin 8 := 0
  /-- Bits of `SUPPORTED_IFLAGS` beside `IFLAG_SIGNED` (R5, D4). R5's default is none: `SUPPORTED_IFLAGS` is
  `IFLAG_SIGNED`. -/
  otherIflags : Byte := 0x00#8
  /-- The table `SEED`: a byte for every 24-bit message id (R15, D14). -/
  seed : Word24 → Byte
  /-- `SB_CAP`: `none` is unbounded, `some k` is a capacity of `279 + k` bytes (R5, D11). -/
  extraCapacity : Option Nat

/-- A build that keeps R5's defaults of the two flag parameters, both masks 0x01 (a default of the spec from general
knowledge, log 5). R5 gives `SEED` and `SB_CAP` no default, so the build must fix them (R222). -/
def Params.withDefaultFlags (seed : Word24 → Byte) (extraCapacity : Option Nat) : Params where
  seed := seed
  extraCapacity := extraCapacity

/-- `IFLAG_SIGNED`'s bit position: a parameter whose value the source does not give (D4, log 5). No body. -/
opaque signedBit : Fin 8

/-- The other supported bits: a parameter whose value the source does not give (D4, log 5). No body. -/
opaque otherIflags : Byte

/-- `SEED`: the catalog's table, `OPEN` (D14, log 6). No body. -/
opaque seed : Word24 → Byte

/-- `SB_CAP` less 279, or unbounded: `OPEN` (D11, log 7). No body. -/
opaque extraCapacity : Option Nat

/-- The parameters of the block that the machine runs with: free in all four, so that what holds of it holds of every
build, the one with the default flags among them. -/
def params : Params where
  signedBit := signedBit
  otherIflags := otherIflags
  seed := seed
  extraCapacity := extraCapacity

end Config

end Sys2Proof
end

