-- ==== Sys2Proof/Machine/Crc.lean ====
section
/-! DEFINITION. The two pure functions of the checksum-16 generator, `crc_step` and `crc16` (R80, R81). -/

namespace Sys2Proof.Machine

open Sys2Proof

/-- `crc_step` (R80), in 16-bit arithmetic: `t2` has 8 significant bits and is 16 bits wide before it is shifted, so no
shift loses a bit that R80 keeps. -/
def crcStep (acc : Word16) (b : Byte) : Word16 :=
  let t1 := (acc ^^^ b.setWidth 16) &&& 0xFF#16
  let t2 := (t1 ^^^ (t1 <<< 4)) &&& 0xFF#16
  (acc >>> 8) ^^^ (t2 <<< 8) ^^^ (t2 <<< 3) ^^^ (t2 >>> 4)

/-- The fold of `crc_step` from the all-ones value, without the seed: `crc16_raw` of R81. -/
def crc16Raw (bs : List Byte) : Word16 := bs.foldl crcStep Config.crcInitValue

/-- `crc16` (R81): the bytes in index order, then the seed, always. -/
def crc16 (bs : List Byte) (seed : Byte) : Word16 := crcStep (crc16Raw bs) seed

end Sys2Proof.Machine
end

