-- ==== Sys2Proof/Machine/Flags.lean ====
section
/-! DEFINITION. The two flag masks and the tests of the incompatibility-flags byte (R5, R53), and the capacity test of
the stream buffer (R141). The block keeps no status flag or condition code (R19), so there is no other flag computation. -/

namespace Sys2Proof

/-- `IFLAG_SIGNED`: exactly one bit set (R5). -/
def Config.Params.iflagSigned (p : Config.Params) : Byte := 1#8 <<< p.signedBit.val

/-- `SUPPORTED_IFLAGS`: the mask of accepted bits, the signed bit among them (R5). -/
def Config.Params.supportedIflags (p : Config.Params) : Byte := p.iflagSigned ||| p.otherIflags

/-- A flags byte is acceptable when it has no bit outside `SUPPORTED_IFLAGS` (R53). -/
def Machine.flagsAcceptable (p : Config.Params) (flags : Byte) : Bool :=
  flags &&& ~~~p.supportedIflags == 0#8

/-- A flags byte says "signed frame" when the bit `IFLAG_SIGNED` is set in it (R53). -/
def Machine.isSigned (p : Config.Params) (flags : Byte) : Bool :=
  flags &&& p.iflagSigned != 0#8

/-- `SB_CAP`: `none` where the buffer is unbounded (R5, D11). -/
def Config.Params.capacity (p : Config.Params) : Option Nat := p.extraCapacity.map (279 + ·)

/-- `n` bytes fit the stream buffer: `n <= SB_CAP` (R33, R141). The first test is implied by the second, since every
capacity is at least 279; it lets 279 bytes be seen to fit whatever the parameter is. -/
def Machine.fits (p : Config.Params) (n : Nat) : Bool :=
  decide (n ≤ 279) ||
    match p.capacity with
    | none => true
    | some cap => decide (n ≤ cap)

end Sys2Proof
end

