-- ==== Sys2Proof/Syntax.lean ====
section
/-! DEFINITION. The instructions: one constructor for each row of spec/opcode_table.json, 32 operations of the format
CMD8 (R65) and the two wire formats of the format FRAME (R50). -/

namespace Sys2Proof

/-- The table's column "format": a command on the command port, or a frame on the wire. -/
inductive Format where
  /-- One byte of command code, then the operands (R65). -/
  | cmd8
  /-- The bytes of the link, a whole frame in wire order where one stands there (R50). -/
  | frame
  deriving DecidableEq, Repr

/-- The 13 bytes of a signature in their three parts (R60). The block never interprets them. -/
structure Signature where
  /-- Link id, 1 byte. -/
  linkId : Byte
  /-- Timestamp, 6 bytes, little-endian. -/
  timestamp : BitVec 48
  /-- Truncated MAC, a byte string of 6 bytes in stream order. -/
  mac : List Byte
  deriving DecidableEq, Repr

/-- The fields of a frame on the wire other than the marker, the length byte (it is the payload's length) and the
signature (R50). -/
structure FrameFields where
  /-- `incompatibility_flags`, offset 2 (R53). -/
  incompatFlags : Byte
  /-- `compatibility_flags`, offset 3 (R54). -/
  compatFlags : Byte
  /-- `sequence`, offset 4 (R55). -/
  sequence : Byte
  /-- `system_id`, offset 5 (R56). -/
  systemId : Byte
  /-- `component_id`, offset 6 (R56). -/
  componentId : Byte
  /-- `message_id`, offsets 7 to 9 (R57). -/
  messageId : Word24
  /-- `payload`, from offset 10; its length is `payload_length`, offset 1 (R52, R58). -/
  payload : List Byte
  /-- `checksum`, after the payload (R59): the value the frame carries, right or wrong. -/
  checksum : Word16
  deriving DecidableEq, Repr

/-- The instructions. Operands stand in the order of the table's column "fields". -/
inductive Instr where
  /-- `PUSH bs` (R141). -/
  | push (bs : List Byte)
  /-- `DECODE` (R142). -/
  | decode
  /-- `RESET` (R147). -/
  | reset
  /-- `CRC_INIT` (R83). -/
  | crcInit
  /-- `CRC_ACC b` (R84). -/
  | crcAcc (b : Byte)
  /-- `CRC_GET` (R85). -/
  | crcGet
  /-- `CRC_COMPUTE bs, seed` (R86). -/
  | crcCompute (bs : List Byte) (seed : Byte)
  /-- `GET_MAGIC fr` (R101). -/
  | getMagic (fr : RawFrame)
  /-- `GET_PAYLOAD_LENGTH fr` (R102). -/
  | getPayloadLength (fr : RawFrame)
  /-- `GET_INCOMPAT_FLAGS fr` (R103). -/
  | getIncompatFlags (fr : RawFrame)
  /-- `GET_COMPAT_FLAGS fr` (R104). -/
  | getCompatFlags (fr : RawFrame)
  /-- `GET_SEQUENCE fr` (R105). -/
  | getSequence (fr : RawFrame)
  /-- `GET_SYSTEM_ID fr` (R106). -/
  | getSystemId (fr : RawFrame)
  /-- `GET_COMPONENT_ID fr` (R107). -/
  | getComponentId (fr : RawFrame)
  /-- `GET_MESSAGE_ID fr` (R108). -/
  | getMessageId (fr : RawFrame)
  /-- `GET_PAYLOAD fr` (R109). -/
  | getPayload (fr : RawFrame)
  /-- `GET_CHECKSUM fr` (R110). -/
  | getChecksum (fr : RawFrame)
  /-- `GET_SIGNATURE fr` (R112). -/
  | getSignature (fr : RawFrame)
  /-- `SIGNATURE_LENGTH fr` (R111). -/
  | signatureLength (fr : RawFrame)
  /-- `RAW_BYTES fr` (R113). -/
  | rawBytes (fr : RawFrame)
  /-- `HAS_VALID_CRC fr` (R115). -/
  | hasValidCrc (fr : RawFrame)
  /-- `SET_MAGIC fr, v` (R120). -/
  | setMagic (fr : RawFrame) (v : Byte)
  /-- `SET_PAYLOAD_LENGTH fr, v` (R121). -/
  | setPayloadLength (fr : RawFrame) (v : Byte)
  /-- `SET_INCOMPAT_FLAGS fr, v` (R122). -/
  | setIncompatFlags (fr : RawFrame) (v : Byte)
  /-- `SET_COMPAT_FLAGS fr, v` (R123). -/
  | setCompatFlags (fr : RawFrame) (v : Byte)
  /-- `SET_SEQUENCE fr, v` (R124). -/
  | setSequence (fr : RawFrame) (v : Byte)
  /-- `SET_SYSTEM_ID fr, v` (R125). -/
  | setSystemId (fr : RawFrame) (v : Byte)
  /-- `SET_COMPONENT_ID fr, v` (R126). -/
  | setComponentId (fr : RawFrame) (v : Byte)
  /-- `SET_MESSAGE_ID fr, v` (R127). -/
  | setMessageId (fr : RawFrame) (v : Word24)
  /-- `SET_PAYLOAD fr, bs` (R128). -/
  | setPayload (fr : RawFrame) (bs : List Byte)
  /-- `SET_CHECKSUM fr, v` (R129). -/
  | setChecksum (fr : RawFrame) (v : Word16)
  /-- `SET_SIGNATURE fr, bs` (R130). -/
  | setSignature (fr : RawFrame) (bs : List Byte)
  /-- `FRAME_V2_UNSIGNED`: a frame without signature (R50). -/
  | frameV2Unsigned (fields : FrameFields)
  /-- `FRAME_V2_SIGNED`: a frame with signature (R50, R60). -/
  | frameV2Signed (fields : FrameFields) (sig : Signature)
  deriving DecidableEq, Repr

/-- The format in which an instruction travels. -/
def Instr.format : Instr → Format
  | .push _ => .cmd8
  | .decode => .cmd8
  | .reset => .cmd8
  | .crcInit => .cmd8
  | .crcAcc _ => .cmd8
  | .crcGet => .cmd8
  | .crcCompute _ _ => .cmd8
  | .getMagic _ => .cmd8
  | .getPayloadLength _ => .cmd8
  | .getIncompatFlags _ => .cmd8
  | .getCompatFlags _ => .cmd8
  | .getSequence _ => .cmd8
  | .getSystemId _ => .cmd8
  | .getComponentId _ => .cmd8
  | .getMessageId _ => .cmd8
  | .getPayload _ => .cmd8
  | .getChecksum _ => .cmd8
  | .getSignature _ => .cmd8
  | .signatureLength _ => .cmd8
  | .rawBytes _ => .cmd8
  | .hasValidCrc _ => .cmd8
  | .setMagic _ _ => .cmd8
  | .setPayloadLength _ _ => .cmd8
  | .setIncompatFlags _ _ => .cmd8
  | .setCompatFlags _ _ => .cmd8
  | .setSequence _ _ => .cmd8
  | .setSystemId _ _ => .cmd8
  | .setComponentId _ _ => .cmd8
  | .setMessageId _ _ => .cmd8
  | .setPayload _ _ => .cmd8
  | .setChecksum _ _ => .cmd8
  | .setSignature _ _ => .cmd8
  | .frameV2Unsigned _ => .frame
  | .frameV2Signed _ _ => .frame

end Sys2Proof
end

