-- ==== Sys2Proof/Machine/Frame.lean ====
section
/-! DEFINITION. The typed view of a RawFrame value: where each field lies (R50, R100), what each accessor reads
(R101 to R115), and the writes of the mutators (R119 to R130). -/

namespace Sys2Proof

open Machine

/-- `fr[i]`. Every operation reads at an index below 280 (R35, R100); beyond the array there is nothing, and the value
0 that a total function must give there is read by no operation. -/
def RawFrame.byte (fr : RawFrame) (i : Nat) : Byte := fr.bytes.getD i 0#8

/-- `fr[i..j)` (R7). -/
def RawFrame.slice (fr : RawFrame) (i j : Nat) : List Byte := (fr.bytes.drop i).take (j - i)

/-- The array with the bytes `bs` stored at `off`, `off + 1`, ..., every other byte unchanged (R119). Nothing is stored
outside the array. -/
def RawFrame.write (fr : RawFrame) (off : Nat) (bs : List Byte) : RawFrame where
  bytes := (fr.bytes.take off ++ bs ++ fr.bytes.drop (off + bs.length)).take 280
  size_eq := by
    have := fr.size_eq
    simp only [List.length_take, List.length_append, List.length_drop]
    omega

/-- `n(fr) = fr[1]`, the number of payload bytes (R52, R100). -/
def RawFrame.payloadLength (fr : RawFrame) : Nat := (fr.byte 1).toNat

/-- `SIGNATURE_LENGTH` (R111): 13 or 0 by the signed bit of `fr[2]`. -/
def RawFrame.signatureLength (p : Config.Params) (fr : RawFrame) : Nat :=
  if isSigned p (fr.byte 2) then 13 else 0

/-- The trailing length `T` (R61): payload, checksum and signature. -/
def RawFrame.trailingLength (p : Config.Params) (fr : RawFrame) : Nat :=
  fr.payloadLength + 2 + fr.signatureLength p

/-- The frame length `L = 10 + T` (R61, R100). -/
def RawFrame.frameLength (p : Config.Params) (fr : RawFrame) : Nat :=
  10 + fr.trailingLength p

/-- `message_id`, little-endian at offsets 7 to 9 (R57, R108). -/
def RawFrame.messageId (fr : RawFrame) : Word24 := BitVec.ofNat 24 (leNat (fr.slice 7 10))

/-- The payload: exactly `n` bytes from offset 10 (R58, R109). -/
def RawFrame.payload (fr : RawFrame) : List Byte :=
  fr.slice 10 (10 + fr.payloadLength)

/-- One payload byte by index: defined only below `payload_length` (R109, D19). -/
def RawFrame.payloadByte (fr : RawFrame) (i : Nat) : Option Byte := fr.payload[i]?

/-- The stored checksum, little-endian after the payload (R59, R110). -/
def RawFrame.checksum (fr : RawFrame) : Word16 :=
  BitVec.ofNat 16 (leNat (fr.slice (10 + fr.payloadLength) (12 + fr.payloadLength)))

/-- The signature: 13 bytes after the checksum in a signed frame, nothing otherwise (R60, R112). -/
def RawFrame.signature (p : Config.Params) (fr : RawFrame) : List Byte :=
  fr.slice (12 + fr.payloadLength)
    (12 + fr.payloadLength + fr.signatureLength p)

/-- The three parts of the signature of a signed frame (R60, R112): link id, little-endian timestamp, MAC. -/
def RawFrame.signatureParts (p : Config.Params) (fr : RawFrame) : Option Signature :=
  if isSigned p (fr.byte 2) then
    some
      { linkId := fr.byte (12 + fr.payloadLength)
        timestamp := BitVec.ofNat 48 (leNat (fr.slice (13 + fr.payloadLength) (19 + fr.payloadLength)))
        mac := fr.slice (19 + fr.payloadLength) (25 + fr.payloadLength) }
  else none

/-- The frame as it stood on the wire: `fr[0..L)` (R113). -/
def RawFrame.rawBytes (p : Config.Params) (fr : RawFrame) : List Byte :=
  fr.slice 0 (fr.frameLength p)

/-- The bytes the checksum covers: the nine header bytes after the marker, then the payload (R59, R82). -/
def RawFrame.covered (fr : RawFrame) : List Byte :=
  fr.slice 1 (10 + fr.payloadLength)

/-- `frame_crc` (R82): the checksum that belongs in the frame's checksum field. -/
def RawFrame.frameCrc (p : Config.Params) (fr : RawFrame) : Word16 :=
  crc16 fr.covered (p.seed fr.messageId)

/-- `HAS_VALID_CRC` (R115): the recomputed checksum equals the stored one; nothing else is tested. -/
def RawFrame.hasValidCrc (p : Config.Params) (fr : RawFrame) : Bool :=
  fr.frameCrc p == fr.checksum

/-- `SET_PAYLOAD` (R128): the payload bytes, if the sequence has exactly `payload_length` of them. -/
def RawFrame.setPayload (fr : RawFrame) (bs : List Byte) : Option RawFrame :=
  if bs.length = fr.payloadLength then some (fr.write 10 bs) else none

/-- `SET_SIGNATURE` (R130) on a signed frame, with 13 bytes. -/
def RawFrame.setSignature (fr : RawFrame) (bs : List Byte) : RawFrame :=
  fr.write (12 + fr.payloadLength) bs

/-- `SET_CHECKSUM` (R129): the two bytes after the payload that `payload_length` gives now, low byte first. -/
def RawFrame.setChecksum (fr : RawFrame) (v : Word16) : RawFrame :=
  fr.write (10 + fr.payloadLength) (leBytes 2 v.toNat)

/-- `SET_MESSAGE_ID` (R127): offsets 7 to 9, low byte first. -/
def RawFrame.setMessageId (fr : RawFrame) (v : Word24) : RawFrame := fr.write 7 (leBytes 3 v.toNat)

end Sys2Proof
end

