-- ==== Sys2Proof/Machine/State.lean ====
section
/-! DEFINITION. The state of the block: the four items of R10, the ghost values of R9 and R192, and the model's own two
ports; the reasons a step can stop; the state after power-on (R22, R220). -/

namespace Sys2Proof.Machine

open Sys2Proof

/-- `ST`, the decoder state (R11). No rule depends on an encoding of it (D5), so it is a set of names. -/
inductive DecoderState where
  /-- `SEARCH`, the source's `SearchingForMagic`. -/
  | search
  /-- `HEADER`, the source's `ParsingHeader`. -/
  | header
  /-- `PAYLOAD`, the source's `ParsingPayload`. -/
  | payload
  /-- `VERIFY`, the source's `VerifyingChecksum`. -/
  | verify
  deriving DecidableEq, Repr

/-- The two causes of a rejection (R170, R191): labels without codes (R192). -/
inductive RejectCause where
  /-- `REJ_IFLAGS`: a flags byte with a bit outside `SUPPORTED_IFLAGS`. -/
  | iflags
  /-- `REJ_CRC`: the stored checksum differs from the recomputed one. -/
  | crc
  deriving DecidableEq, Repr

/-- The result of an operation, as the tables of R65 and of spec/opcode_table.json give it. -/
inductive Result where
  /-- The operation has no result. -/
  | none
  /-- `NeedMore`, of `DECODE`. -/
  | needMore
  /-- `Frame(fr)`, of `DECODE`: a copy of the frame buffer (R148). -/
  | frame (fr : RawFrame)
  /-- 8 bits. -/
  | byte (b : Byte)
  /-- 16 bits. -/
  | word16 (v : Word16)
  /-- 24 bits. -/
  | word24 (v : Word24)
  /-- A byte sequence. -/
  | bytes (bs : List Byte)
  /-- A length, 0 or 13, of `SIGNATURE_LENGTH`. -/
  | length (n : Nat)
  /-- A boolean, of `HAS_VALID_CRC`. -/
  | bool (b : Bool)
  /-- `fr'`, of a mutator. -/
  | rawFrame (fr : RawFrame)
  deriving DecidableEq, Repr

/-- The ghost values: not hardware, read by no operation (R9, R21, R192). -/
structure Ghost where
  /-- `CONS`: how many bytes have been removed from the stream buffer since power-on (R9). -/
  cons : Nat
  /-- `STREAM`: every byte ever appended, in order (R9). -/
  stream : List Byte
  /-- The ghost log of rejections: each cause with `CONS` at the time, oldest first (R192, D24). -/
  rejections : List (RejectCause × Nat)
  deriving DecidableEq, Repr

/-- The command port (the model's own, log 1): what the host presents and the block has not yet taken. -/
structure Port where
  /-- The format announced: the table's column "format". -/
  format : Format
  /-- The bytes presented. -/
  bytes : List Byte
  deriving DecidableEq, Repr

/-- The state of one block instance (R10), with the ghost values and the model's two ports. -/
structure State where
  /-- `ST`, the decoder state (R11). -/
  st : DecoderState
  /-- `F`, the frame buffer of 280 bytes (R13). -/
  f : RawFrame
  /-- `SB`, the stream buffer, front first (R17). -/
  sb : List Byte
  /-- `ACC`, the checksum accumulator (R14). -/
  acc : Word16
  /-- The command port (log 1). -/
  port : Port
  /-- The result port: the result of the last operation (R65, log 2). -/
  result : Result
  /-- The ghost values (R9, log 3). -/
  ghost : Ghost
  deriving DecidableEq, Repr

/-- The block never faults: "No operation of the block raises an exception, returns an error or sets an error flag, for
any input and in any state" (R190). There is no constructor, so nothing raises one. -/
inductive Fault where
  deriving DecidableEq, Repr

/-- Why a step is refused: the operations that R201 says have no step, and the bytes that are no instruction. Every one
is safe: the model stops and claims nothing of what follows. -/
inductive Refusal where
  /-- An instruction that has no meaning yet; raised by `exec`'s arm for it only. Safe. -/
  | notModelled (mnemonic : String)
  /-- A command code that is not in R65, raised by `step` (R201 (e), U20). Safe. -/
  | unknownCommand (code : Byte)
  /-- A `PUSH`, or bytes of the link, that do not fit the stream buffer: the operation is not enabled, and the host
  waits or offers fewer bytes (R141, R201 (f)). Raised by `PUSH`, the two wire formats and a link's single byte. Safe. -/
  | pushNotEnabled
  /-- `SET_PAYLOAD` with a sequence whose length is not `payload_length` (R128, R201 (d)). Safe. -/
  | payloadLengthMismatch
  /-- `SET_SIGNATURE` on an unsigned frame (R130, R201 (d)). Safe. -/
  | unsignedFrame
  /-- `SET_SIGNATURE` with a sequence that is not of 13 bytes (R130, R201 (d)). Safe. -/
  | signatureLengthMismatch
  deriving DecidableEq, Repr

/-- The state after power-on (R22, R220): `ST = SEARCH`, `F` all zero, `SB` empty, `ACC = 0xFFFF`, `CONS = 0`, nothing
appended, nothing rejected; nothing at the command port and no result yet (logs 1, 2). -/
def State.reset : State where
  st := .search
  f := RawFrame.zero
  sb := []
  acc := Config.crcInitValue
  port := { format := .cmd8, bytes := [] }
  result := .none
  ghost := { cons := 0, stream := [], rejections := [] }

end Sys2Proof.Machine
end

