-- ==== Sys2Proof/Machine/Ops.lean ====
section
/-! DEFINITION. The named operations over the state: the result port, the four primitives of the stream buffer (R33),
the writes of the frame buffer (R35), the reinitialisation of `RESET` (R147), and the rejection, which stands where
another machine takes an exception (R170, R194). -/

namespace Sys2Proof.Machine

open Sys2Proof

/-- The result of the operation, on the result port (R65). -/
def State.answer (s : State) (r : Result) : State := { s with result := r }

/-- `Peek(i)` to `Peek(i + k - 1)`: the `k` bytes from distance `i` on, the buffer unchanged (R33, R34). `SB.len` is
`s.sb.length`. -/
def State.peekMany (s : State) (i k : Nat) : List Byte := (s.sb.drop i).take k

/-- `Consume()`: the front byte is removed and `CONS` grows by one (R33). It is used only when `SB.len >= 1`. -/
def State.consume (s : State) : State :=
  { s with sb := s.sb.tail, ghost := { s.ghost with cons := s.ghost.cons + 1 } }

/-- `Append(bs)`: the bytes are added at the back (R33); they join `STREAM` (R9). -/
def State.append (s : State) (bs : List Byte) : State :=
  { s with sb := s.sb ++ bs, ghost := { s.ghost with stream := s.ghost.stream ++ bs } }

/-- `Append` where it is enabled: `SB.len + |bs| <= SB_CAP` (R33, R141). Bytes that do not fit are not appended, not even
in part. -/
def State.appendIfFits (s : State) (p : Config.Params) (bs : List Byte) : Option State :=
  if fits p (s.sb.length + bs.length) then some (s.append bs) else none

/-- `F[off + i] <- bs[i]` (R35). -/
def State.store (s : State) (off : Nat) (bs : List Byte) : State := { s with f := s.f.write off bs }

/-- `ST <- st`. -/
def State.goto (s : State) (st : DecoderState) : State := { s with st := st }

/-- `RESET`'s effect on the decoder: `ST <- SEARCH` and all 280 bytes of `F` zero; `SB`, `ACC` and `CONS` as they are
(R147). -/
def State.reinit (s : State) : State := { s with st := .search, f := RawFrame.zero }

/-- `reject(c)` (R170, R194): the candidate is given up. `F` is reinitialised, `ST` becomes `SEARCH`, nothing is consumed
or skipped, and the cause is recorded nowhere but in the ghost log (R192). There is no return from it: the same `DECODE`
goes on with the search (R195). -/
def State.reject (s : State) (c : RejectCause) : State :=
  { s.reinit with ghost := { s.ghost with rejections := s.ghost.rejections ++ [(c, s.ghost.cons)] } }

/-- The canonical form of the memory that grows and shrinks, the stream buffer: a byte list has one representation, and
what must hold of it is `|SB| <= SB_CAP` (R33, log 12). -/
def Memory.wf (p : Config.Params) (sb : List Byte) : Bool := fits p sb.length

end Sys2Proof.Machine
end

