-- ==== Sys2Proof/Machine/Accessors.lean ====
section
/-! DEFINITION. The read accessors of a RawFrame operand and `HAS_VALID_CRC` (R101 to R115): pure functions of the
operand, whose result goes to the result port. -/

namespace Sys2Proof.Machine

open Sys2Proof

/-- `GET_MAGIC fr` (R101). -/
def execGetMagic (fr : RawFrame) (s : State) : Host.Outcome State Fault Refusal := .next (s.answer (.byte (fr.byte 0)))

/-- `GET_PAYLOAD_LENGTH fr` (R102). -/
def execGetPayloadLength (fr : RawFrame) (s : State) : Host.Outcome State Fault Refusal :=
  .next (s.answer (.byte (fr.byte 1)))

/-- `GET_INCOMPAT_FLAGS fr` (R103). -/
def execGetIncompatFlags (fr : RawFrame) (s : State) : Host.Outcome State Fault Refusal :=
  .next (s.answer (.byte (fr.byte 2)))

/-- `GET_COMPAT_FLAGS fr` (R104). -/
def execGetCompatFlags (fr : RawFrame) (s : State) : Host.Outcome State Fault Refusal :=
  .next (s.answer (.byte (fr.byte 3)))

/-- `GET_SEQUENCE fr` (R105). -/
def execGetSequence (fr : RawFrame) (s : State) : Host.Outcome State Fault Refusal :=
  .next (s.answer (.byte (fr.byte 4)))

/-- `GET_SYSTEM_ID fr` (R106). -/
def execGetSystemId (fr : RawFrame) (s : State) : Host.Outcome State Fault Refusal :=
  .next (s.answer (.byte (fr.byte 5)))

/-- `GET_COMPONENT_ID fr` (R107). -/
def execGetComponentId (fr : RawFrame) (s : State) : Host.Outcome State Fault Refusal :=
  .next (s.answer (.byte (fr.byte 6)))

/-- `GET_MESSAGE_ID fr` (R108). -/
def execGetMessageId (fr : RawFrame) (s : State) : Host.Outcome State Fault Refusal :=
  .next (s.answer (.word24 fr.messageId))

/-- `GET_PAYLOAD fr` (R109). -/
def execGetPayload (fr : RawFrame) (s : State) : Host.Outcome State Fault Refusal :=
  .next (s.answer (.bytes fr.payload))

/-- `GET_CHECKSUM fr` (R110): the stored checksum. -/
def execGetChecksum (fr : RawFrame) (s : State) : Host.Outcome State Fault Refusal :=
  .next (s.answer (.word16 fr.checksum))

/-- `GET_SIGNATURE fr` (R112). -/
def execGetSignature (fr : RawFrame) (s : State) : Host.Outcome State Fault Refusal :=
  .next (s.answer (.bytes (fr.signature Config.params)))

/-- `SIGNATURE_LENGTH fr` (R111). -/
def execSignatureLength (fr : RawFrame) (s : State) : Host.Outcome State Fault Refusal :=
  .next (s.answer (.length (fr.signatureLength Config.params)))

/-- `RAW_BYTES fr` (R113). -/
def execRawBytes (fr : RawFrame) (s : State) : Host.Outcome State Fault Refusal :=
  .next (s.answer (.bytes (fr.rawBytes Config.params)))

/-- `HAS_VALID_CRC fr` (R115). -/
def execHasValidCrc (fr : RawFrame) (s : State) : Host.Outcome State Fault Refusal :=
  .next (s.answer (.bool (fr.hasValidCrc Config.params)))

end Sys2Proof.Machine
end

