-- ==== Sys2Proof/Machine/Checksum.lean ====
section
/-! DEFINITION. The operations of the checksum-16 generator (R83 to R86). They touch `ACC` and nothing else of the block
(R14). -/

namespace Sys2Proof.Machine

open Sys2Proof

/-- `CRC_INIT` (R83): `ACC <- 0xFFFF`. -/
def execCrcInit (s : State) : Host.Outcome State Fault Refusal :=
  .next ({ s with acc := Config.crcInitValue }.answer .none)

/-- `CRC_ACC b` (R84): `ACC <- crc_step(ACC, b)`. -/
def execCrcAcc (b : Byte) (s : State) : Host.Outcome State Fault Refusal :=
  .next ({ s with acc := crcStep s.acc b }.answer .none)

/-- `CRC_GET` (R85): result `ACC`. -/
def execCrcGet (s : State) : Host.Outcome State Fault Refusal := .next (s.answer (.word16 s.acc))

/-- `CRC_COMPUTE bs, seed` (R86): result `crc16(bs, seed)`; `ACC` is neither read nor written. -/
def execCrcCompute (bs : List Byte) (seed : Byte) (s : State) : Host.Outcome State Fault Refusal :=
  .next (s.answer (.word16 (crc16 bs seed)))

end Sys2Proof.Machine
end

