-- ==== Sys2Proof/Machine/Mutators.lean ====
section
/-! DEFINITION. The mutators of a RawFrame operand (R119 to R130): each answers the array with the named bytes replaced
and every other byte unchanged. They act on the host's value, never on `F`, and none recomputes the checksum. -/

namespace Sys2Proof.Machine

open Sys2Proof

/-- `SET_MAGIC fr, v` (R120). -/
def execSetMagic (fr : RawFrame) (v : Byte) (s : State) : Host.Outcome State Fault Refusal :=
  .next (s.answer (.rawFrame (fr.write 0 [v])))

/-- `SET_PAYLOAD_LENGTH fr, v` (R121). -/
def execSetPayloadLength (fr : RawFrame) (v : Byte) (s : State) : Host.Outcome State Fault Refusal :=
  .next (s.answer (.rawFrame (fr.write 1 [v])))

/-- `SET_INCOMPAT_FLAGS fr, v` (R122). -/
def execSetIncompatFlags (fr : RawFrame) (v : Byte) (s : State) : Host.Outcome State Fault Refusal :=
  .next (s.answer (.rawFrame (fr.write 2 [v])))

/-- `SET_COMPAT_FLAGS fr, v` (R123). -/
def execSetCompatFlags (fr : RawFrame) (v : Byte) (s : State) : Host.Outcome State Fault Refusal :=
  .next (s.answer (.rawFrame (fr.write 3 [v])))

/-- `SET_SEQUENCE fr, v` (R124). -/
def execSetSequence (fr : RawFrame) (v : Byte) (s : State) : Host.Outcome State Fault Refusal :=
  .next (s.answer (.rawFrame (fr.write 4 [v])))

/-- `SET_SYSTEM_ID fr, v` (R125). -/
def execSetSystemId (fr : RawFrame) (v : Byte) (s : State) : Host.Outcome State Fault Refusal :=
  .next (s.answer (.rawFrame (fr.write 5 [v])))

/-- `SET_COMPONENT_ID fr, v` (R126). -/
def execSetComponentId (fr : RawFrame) (v : Byte) (s : State) : Host.Outcome State Fault Refusal :=
  .next (s.answer (.rawFrame (fr.write 6 [v])))

/-- `SET_MESSAGE_ID fr, v` (R127). -/
def execSetMessageId (fr : RawFrame) (v : Word24) (s : State) : Host.Outcome State Fault Refusal :=
  .next (s.answer (.rawFrame (fr.setMessageId v)))

/-- `SET_PAYLOAD fr, bs` (R128): a sequence of another length than `payload_length` is refused. -/
def execSetPayload (fr : RawFrame) (bs : List Byte) (s : State) : Host.Outcome State Fault Refusal :=
  match fr.setPayload bs with
  | some fr' => .next (s.answer (.rawFrame fr'))
  | none => .refused .payloadLengthMismatch

/-- `SET_CHECKSUM fr, v` (R129). -/
def execSetChecksum (fr : RawFrame) (v : Word16) (s : State) : Host.Outcome State Fault Refusal :=
  .next (s.answer (.rawFrame (fr.setChecksum v)))

/-- `SET_SIGNATURE fr, bs` (R130): refused unless the sequence has 13 bytes and the frame is signed. -/
def execSetSignature (fr : RawFrame) (bs : List Byte) (s : State) : Host.Outcome State Fault Refusal :=
  if bs.length ≠ 13 then .refused .signatureLengthMismatch
  else if isSigned Config.params (fr.byte 2) then .next (s.answer (.rawFrame (fr.setSignature bs)))
  else .refused .unsignedFrame

end Sys2Proof.Machine
end

