-- ==== Sys2Proof/Machine/Decoder.lean ====
section
/-! DEFINITION. The decoder's operations: `PUSH` (R141), the four steps of `DECODE` and the loop that runs them
(R142 to R146), and `RESET` (R147). -/

namespace Sys2Proof.Machine

open Sys2Proof

/-- How a step of `DECODE` ends: it goes on with the new `ST`, or it returns and `DECODE` ends (R142). -/
inductive StepResult where
  /-- The loop goes on from this state. -/
  | goOn (s : State)
  /-- `DECODE` returns; its result is on the result port. -/
  | done (s : State)
  deriving DecidableEq, Repr

/-- Do the first thing and, if it does not return, the second. -/
def StepResult.andThen (r : StepResult) (f : State → StepResult) : StepResult :=
  match r with
  | .goOn s => f s
  | .done s => .done s

/-- The search step (R143), one byte of it: the three rows of R151 that begin in `SEARCH`. -/
def stepSearch (s : State) : StepResult :=
  match s.sb with
  | [] => .done (s.answer .needMore)
  | b :: _ =>
    if b = Config.marker then .goOn ((s.consume.store 0 [Config.marker]).goto .header)
    else .goOn s.consume

/-- The header step (R144): with 9 bytes present the header is copied and the flags tested; nothing is consumed. -/
def stepHeader (p : Config.Params) (s : State) : StepResult :=
  if s.sb.length < 9 then .done (s.answer .needMore)
  else
    let s1 := s.store 1 (s.peekMany 0 9)
    if flagsAcceptable p (s1.f.byte 2) then .goOn (s1.goto .payload)
    else .goOn (s1.reject .iflags)

/-- The payload step (R145): with `9 + T` bytes present the trailing bytes are copied; nothing is consumed. -/
def stepPayload (p : Config.Params) (s : State) : StepResult :=
  if s.sb.length < 9 + s.f.trailingLength p then .done (s.answer .needMore)
  else .goOn ((s.store 10 (s.peekMany 9 (s.f.trailingLength p))).goto .verify)

/-- The verify step (R146): a frame whose checksum matches is returned as a copy and `ST` stays `VERIFY`; otherwise the
candidate is rejected. -/
def stepVerify (p : Config.Params) (s : State) : StepResult :=
  if s.f.hasValidCrc p then .done (s.answer (.frame s.f)) else .goOn (s.reject .crc)

/-- One turn of `DECODE`'s loop: the step that `ST` names (R142). -/
def decodeStep (p : Config.Params) (s : State) : StepResult :=
  match s.st with
  | .search => stepSearch s
  | .header => stepHeader p s
  | .payload => stepPayload p s
  | .verify => stepVerify p s

/-- A step taken only in the decoder state it belongs to. -/
def stepIn (st : DecoderState) (f : State → StepResult) (s : State) : StepResult :=
  if s.st = st then f s else .goOn s

/-- The steps after the search, in their order: until one returns or the candidate is rejected. With no candidate held
there is nothing to do. -/
def runCandidate (p : Config.Params) (s : State) : StepResult :=
  ((stepIn .header (stepHeader p) s).andThen (stepIn .payload (stepPayload p))).andThen
    (stepIn .verify (stepVerify p))

/-- The loop of R142 from `SEARCH`, recursive on the bytes of the stream buffer: each turn of the search removes one
(R149). The list is `s.sb`. -/
def scan (p : Config.Params) : List Byte → State → State
  | [], s => s.answer .needMore
  | _ :: rest, s =>
    match (stepSearch s).andThen (runCandidate p) with
    | .done t => t
    | .goOn t => scan p rest t

/-- `DECODE` (R142): the step that `ST` names, then the next, until one returns. That this is the loop of R142 is
the statement `Obligations.DecodeIsTheLoopOfItsSteps`. -/
def runDecode (p : Config.Params) (s : State) : State :=
  match runCandidate p s with
  | .done t => t
  | .goOn t => scan p t.sb t

/-- `PUSH bs` (R141): the bytes are appended where they fit; otherwise the operation is not enabled. -/
def execPush (bs : List Byte) (s : State) : Host.Outcome State Fault Refusal :=
  match s.appendIfFits Config.params bs with
  | some t => .next (t.answer .none)
  | none => .refused .pushNotEnabled

/-- `DECODE` (R142). -/
def execDecode (s : State) : Host.Outcome State Fault Refusal := .next (runDecode Config.params s)

/-- `RESET` (R147). -/
def execReset (s : State) : Host.Outcome State Fault Refusal := .next (s.reinit.answer .none)

end Sys2Proof.Machine
end

