-- ==== Sys2Proof/Machine/Operands.lean ====
section
/-! DEFINITION. The operand forms of the command port (R66), each with its reader and its writer: a byte, a 16-bit or
24-bit little-endian value, a byte sequence with a 16-bit little-endian count, a RawFrame as 280 bytes; and the
signature of a wire frame (R60). A reader answers `none` when the bytes presented end before the operand does. -/

namespace Sys2Proof.Machine

open Sys2Proof

/-- The first `n` bytes and the rest. -/
def takeBytes (n : Nat) (bs : List Byte) : Option (List Byte × List Byte) :=
  if n ≤ bs.length then some (bs.take n, bs.drop n) else none

/-- A byte operand (R66). -/
def takeByte : List Byte → Option (Byte × List Byte)
  | [] => none
  | b :: bs => some (b, bs)

/-- A value of `k` bytes, little-endian (R66). -/
def takeValue (k : Nat) (bs : List Byte) : Option (Nat × List Byte) :=
  (takeBytes k bs).map fun (v, rest) => (leNat v, rest)

/-- A byte sequence: a 16-bit little-endian count, then that many bytes (R66). -/
def takeSequence (bs : List Byte) : Option (List Byte × List Byte) :=
  (takeValue 2 bs).bind fun (count, rest) => takeBytes count rest

/-- A RawFrame: its 280 bytes (R66). -/
def takeFrame (bs : List Byte) : Option (RawFrame × List Byte) :=
  if h : 280 ≤ bs.length then
    some (⟨bs.take 280, by rw [List.length_take]; omega⟩, bs.drop 280)
  else none

/-- A signature: link id, 6-byte little-endian timestamp, 6-byte MAC (R60). -/
def takeSignature (bs : List Byte) : Option (Signature × List Byte) :=
  (takeByte bs).bind fun (linkId, r1) =>
    (takeValue 6 r1).bind fun (timestamp, r2) =>
      (takeBytes 6 r2).map fun (mac, r3) =>
        (⟨linkId, BitVec.ofNat 48 timestamp, mac⟩, r3)

/-- A byte sequence as it travels: the count, then the bytes (R66). -/
def putSequence (bs : List Byte) : List Byte := leBytes 2 bs.length ++ bs

/-- The 13 bytes of a signature in stream order (R60). -/
def putSignature (sig : Signature) : List Byte :=
  sig.linkId :: (leBytes 6 sig.timestamp.toNat ++ sig.mac)

/-- The bytes of a frame in stream order, without the signature (R50). -/
def putFields (h : FrameFields) : List Byte :=
  [Config.marker, BitVec.ofNat 8 h.payload.length, h.incompatFlags, h.compatFlags, h.sequence, h.systemId, h.componentId] ++
    leBytes 3 h.messageId.toNat ++ h.payload ++ leBytes 2 h.checksum.toNat

end Sys2Proof.Machine
end

