-- ==== Sys2Proof/Machine/Wire.lean ====
section
/-! DEFINITION. What arrives on the link: the two wire formats of R50, a whole frame at once, and a single byte at which
no whole frame begins. The bytes are appended to the stream (R141 is the only way bytes enter) and the decoder runs once
on the stream (R142), skipping, rejecting or returning as R63 says: log 4. -/

namespace Sys2Proof.Machine

open Sys2Proof

/-- Bytes arrive on the link: they are appended where they fit, and `DECODE` follows. -/
def receiveBytes (p : Config.Params) (bs : List Byte) (s : State) : Host.Outcome State Fault Refusal :=
  match s.appendIfFits p bs with
  | some t => .next (runDecode p t)
  | none => .refused .pushNotEnabled

/-- `FRAME_V2_UNSIGNED` (R50): a frame without signature arrives. -/
def execFrameV2Unsigned (fields : FrameFields) (s : State) : Host.Outcome State Fault Refusal :=
  receiveBytes Config.params (putFields fields) s

/-- `FRAME_V2_SIGNED` (R50, R60): a frame with signature arrives. -/
def execFrameV2Signed (fields : FrameFields) (sig : Signature) (s : State) : Host.Outcome State Fault Refusal :=
  receiveBytes Config.params (putFields fields ++ putSignature sig) s

/-- A byte at which no whole frame begins arrives: noise, or part of a frame that has not arrived whole. -/
def execLinkByte (b : Byte) (s : State) : Host.Outcome State Fault Refusal := receiveBytes Config.params [b] s

end Sys2Proof.Machine
end

