-- ==== Sys2Proof/Machine/Dispatch.lean ====
section
/-! DEFINITION. One arm for each instruction, each a direct call of its meaning. -/

namespace Sys2Proof.Machine

open Sys2Proof

def exec (i : Instr) (s : State) : Host.Outcome State Fault Refusal :=
  match i with
  | .push bs => Sys2Proof.Machine.execPush bs s
  | .decode => Sys2Proof.Machine.execDecode s
  | .reset => Sys2Proof.Machine.execReset s
  | .crcInit => Sys2Proof.Machine.execCrcInit s
  | .crcAcc b => Sys2Proof.Machine.execCrcAcc b s
  | .crcGet => Sys2Proof.Machine.execCrcGet s
  | .crcCompute bs seed => Sys2Proof.Machine.execCrcCompute bs seed s
  | .getMagic fr => Sys2Proof.Machine.execGetMagic fr s
  | .getPayloadLength fr => Sys2Proof.Machine.execGetPayloadLength fr s
  | .getIncompatFlags fr => Sys2Proof.Machine.execGetIncompatFlags fr s
  | .getCompatFlags fr => Sys2Proof.Machine.execGetCompatFlags fr s
  | .getSequence fr => Sys2Proof.Machine.execGetSequence fr s
  | .getSystemId fr => Sys2Proof.Machine.execGetSystemId fr s
  | .getComponentId fr => Sys2Proof.Machine.execGetComponentId fr s
  | .getMessageId fr => Sys2Proof.Machine.execGetMessageId fr s
  | .getPayload fr => Sys2Proof.Machine.execGetPayload fr s
  | .getChecksum fr => Sys2Proof.Machine.execGetChecksum fr s
  | .getSignature fr => Sys2Proof.Machine.execGetSignature fr s
  | .signatureLength fr => Sys2Proof.Machine.execSignatureLength fr s
  | .rawBytes fr => Sys2Proof.Machine.execRawBytes fr s
  | .hasValidCrc fr => Sys2Proof.Machine.execHasValidCrc fr s
  | .setMagic fr v => Sys2Proof.Machine.execSetMagic fr v s
  | .setPayloadLength fr v => Sys2Proof.Machine.execSetPayloadLength fr v s
  | .setIncompatFlags fr v => Sys2Proof.Machine.execSetIncompatFlags fr v s
  | .setCompatFlags fr v => Sys2Proof.Machine.execSetCompatFlags fr v s
  | .setSequence fr v => Sys2Proof.Machine.execSetSequence fr v s
  | .setSystemId fr v => Sys2Proof.Machine.execSetSystemId fr v s
  | .setComponentId fr v => Sys2Proof.Machine.execSetComponentId fr v s
  | .setMessageId fr v => Sys2Proof.Machine.execSetMessageId fr v s
  | .setPayload fr bs => Sys2Proof.Machine.execSetPayload fr bs s
  | .setChecksum fr v => Sys2Proof.Machine.execSetChecksum fr v s
  | .setSignature fr bs => Sys2Proof.Machine.execSetSignature fr bs s
  | .frameV2Unsigned fields => Sys2Proof.Machine.execFrameV2Unsigned fields s
  | .frameV2Signed fields sig => Sys2Proof.Machine.execFrameV2Signed fields sig s

end Sys2Proof.Machine
end

