-- ==== Sys2Proof/WellFormed.lean ====
section
/-! DEFINITION. Which instructions have an encoding: the checks on operands that the types do not make (R50, R53, R60,
R66). -/

namespace Sys2Proof

open Machine

/-- A byte sequence fits the 16-bit count it travels with (R66). -/
def sequenceFits (bs : List Byte) : Bool := decide (bs.length < 65536)

/-- The check common to both wire formats: the payload has at most 255 bytes (R52). A flags byte with an unsupported bit
has an encoding like any other: it is a field of the frame (R50). -/
def FrameFields.wellFormed (h : FrameFields) : Bool := decide (h.payload.length ≤ 255)

/-- The instruction has an encoding. The wire formats also need the signed bit that their row gives (R53), and a signed
frame a MAC of 6 bytes. -/
def Instr.wellFormed (p : Config.Params) : Instr → Bool
  | .push bs => sequenceFits bs
  | .crcCompute bs _ => sequenceFits bs
  | .setPayload _ bs => sequenceFits bs
  | .setSignature _ bs => sequenceFits bs
  | .frameV2Unsigned h => h.wellFormed && !isSigned p h.incompatFlags
  | .frameV2Signed h sig => h.wellFormed && isSigned p h.incompatFlags && decide (sig.mac.length = 6)
  | .decode => true
  | .reset => true
  | .crcInit => true
  | .crcAcc _ => true
  | .crcGet => true
  | .getMagic _ => true
  | .getPayloadLength _ => true
  | .getIncompatFlags _ => true
  | .getCompatFlags _ => true
  | .getSequence _ => true
  | .getSystemId _ => true
  | .getComponentId _ => true
  | .getMessageId _ => true
  | .getPayload _ => true
  | .getChecksum _ => true
  | .getSignature _ => true
  | .signatureLength _ => true
  | .rawBytes _ => true
  | .hasValidCrc _ => true
  | .setMagic _ _ => true
  | .setPayloadLength _ _ => true
  | .setIncompatFlags _ _ => true
  | .setCompatFlags _ _ => true
  | .setSequence _ _ => true
  | .setSystemId _ _ => true
  | .setComponentId _ _ => true
  | .setMessageId _ _ => true
  | .setChecksum _ _ => true

end Sys2Proof
end

