-- ==== Sys2Proof/Decode.lean ====
section
/-! DEFINITION. The decoder of the port: total on any bytes, reading one instruction and the bytes after it or
answering by name why there is none; and after it the encoder. Command codes are those of R65, operand forms those of
R66, the wire format that of R50. -/

namespace Sys2Proof

open Machine

/-- Why the bytes presented at the port are not an instruction. -/
inductive DecodeError where
  /-- Nothing is presented. -/
  | empty
  /-- A command is announced, and the bytes end before its operands do. -/
  | truncated
  /-- The first byte is no command code of R65 (R201 (e)). -/
  | unknownCommand (code : Byte)
  /-- The bytes of a link are announced and no whole frame stands at their head: the first byte, and the others. -/
  | noWholeFrame (b : Byte) (others : List Byte)
  deriving DecidableEq, Repr

/-- What the decoder answers: an instruction and the bytes after it, or why not. -/
inductive Decoded where
  /-- An instruction, and the bytes not yet read. -/
  | ok (i : Instr) (rest : List Byte)
  /-- No instruction. -/
  | error (e : DecodeError)
  deriving DecidableEq, Repr

/-- A reader of operands: the instruction and the bytes after it, or `none` when the bytes end too soon. -/
abbrev Reader := List Byte → Option (Instr × List Byte)

/-- No operand. -/
def readNone (i : Instr) : Reader := fun bs => some (i, bs)

/-- One byte. -/
def readByte (f : Byte → Instr) : Reader := fun bs =>
  (takeByte bs).map fun (b, rest) => (f b, rest)

/-- One byte sequence. -/
def readSequence (f : List Byte → Instr) : Reader := fun bs =>
  (takeSequence bs).map fun (s, rest) => (f s, rest)

/-- A byte sequence, then a byte. -/
def readSequenceByte (f : List Byte → Byte → Instr) : Reader := fun bs =>
  (takeSequence bs).bind fun (s, rest) => readByte (f s) rest

/-- One RawFrame. -/
def readFrame (f : RawFrame → Instr) : Reader := fun bs =>
  (takeFrame bs).map fun (fr, rest) => (f fr, rest)

/-- A RawFrame, then a byte. -/
def readFrameByte (f : RawFrame → Byte → Instr) : Reader := fun bs =>
  (takeFrame bs).bind fun (fr, rest) => readByte (f fr) rest

/-- A RawFrame, then a value of `k` bytes, little-endian. -/
def readFrameValue (k : Nat) (f : RawFrame → Nat → Instr) : Reader := fun bs =>
  (takeFrame bs).bind fun (fr, rest) => (takeValue k rest).map fun (v, rest') => (f fr v, rest')

/-- A RawFrame, then a byte sequence. -/
def readFrameSequence (f : RawFrame → List Byte → Instr) : Reader := fun bs =>
  (takeFrame bs).bind fun (fr, rest) => readSequence (f fr) rest

/-- The rows of R65's table: each command code with the reader of its operands. -/
def cmd8Table : List (Byte × Reader) :=
  [ (0x01#8, readSequence .push),
    (0x02#8, readNone .decode),
    (0x03#8, readNone .reset),
    (0x10#8, readNone .crcInit),
    (0x11#8, readByte .crcAcc),
    (0x12#8, readNone .crcGet),
    (0x13#8, readSequenceByte .crcCompute),
    (0x20#8, readFrame .getMagic),
    (0x21#8, readFrame .getPayloadLength),
    (0x22#8, readFrame .getIncompatFlags),
    (0x23#8, readFrame .getCompatFlags),
    (0x24#8, readFrame .getSequence),
    (0x25#8, readFrame .getSystemId),
    (0x26#8, readFrame .getComponentId),
    (0x27#8, readFrame .getMessageId),
    (0x28#8, readFrame .getPayload),
    (0x29#8, readFrame .getChecksum),
    (0x2A#8, readFrame .getSignature),
    (0x2B#8, readFrame .signatureLength),
    (0x2C#8, readFrame .rawBytes),
    (0x2D#8, readFrame .hasValidCrc),
    (0x30#8, readFrameByte .setMagic),
    (0x31#8, readFrameByte .setPayloadLength),
    (0x32#8, readFrameByte .setIncompatFlags),
    (0x33#8, readFrameByte .setCompatFlags),
    (0x34#8, readFrameByte .setSequence),
    (0x35#8, readFrameByte .setSystemId),
    (0x36#8, readFrameByte .setComponentId),
    (0x37#8, readFrameValue 3 fun fr v => .setMessageId fr (BitVec.ofNat 24 v)),
    (0x38#8, readFrameSequence .setPayload),
    (0x39#8, readFrameValue 2 fun fr v => .setChecksum fr (BitVec.ofNat 16 v)),
    (0x3A#8, readFrameSequence .setSignature) ]

/-- A command: its code, then its operands (R65). -/
def decodeCommand (code : Byte) (operands : List Byte) : Decoded :=
  match cmd8Table.lookup code with
  | none => .error (.unknownCommand code)
  | some read =>
    match read operands with
    | none => .error .truncated
    | some (i, rest) => .ok i rest

/-- The part of a frame after its fixed header (R50, R62): payload, checksum, and the signature of a signed frame. -/
def readTrailing (p : Config.Params) (n : Nat) (h : FrameFields) : Reader := fun bs =>
  (takeBytes n bs).bind fun (payload, r1) =>
    (takeValue 2 r1).bind fun (crc, r2) =>
      if isSigned p h.incompatFlags then
        (takeSignature r2).map fun (sig, r3) =>
          (.frameV2Signed { h with payload := payload, checksum := BitVec.ofNat 16 crc } sig, r3)
      else some (.frameV2Unsigned { h with payload := payload, checksum := BitVec.ofNat 16 crc }, r2)

/-- The bytes after a frame's marker (R50): the nine other header bytes, then as many as they ask for (R62). Every
value of every field is read as it stands, a flags byte with an unsupported bit among them: such a frame is the
decoder's to reject (R53, R63). -/
def readAfterMarker (p : Config.Params) : Reader
  | n :: incompat :: compat :: seq :: sys :: comp :: m0 :: m1 :: m2 :: tail =>
    readTrailing p n.toNat
      { incompatFlags := incompat, compatFlags := compat, sequence := seq, systemId := sys, componentId := comp
        messageId := BitVec.ofNat 24 (leNat [m0, m1, m2]), payload := [], checksum := 0#16 }
      tail
  | _ => none

/-- The bytes of a link, which are not empty: the whole frame at their head, where there is one. -/
def decodeLink (p : Config.Params) (b : Byte) (bs : List Byte) : Decoded :=
  match if b = Config.marker then readAfterMarker p bs else none with
  | none => .error (.noWholeFrame b bs)
  | some (i, rest) => .ok i rest

/-- The port's decoder: the bytes presented, read in the format announced. -/
def decodePort (p : Config.Params) (format : Format) : List Byte → Decoded
  | [] => .error .empty
  | b :: bs =>
    match format with
    | .cmd8 => decodeCommand b bs
    | .frame => decodeLink p b bs

/-- The bytes of an instruction as it travels, in its own format (R50, R65, R66). -/
def encode : Instr → List Byte
  | .push bs => 0x01#8 :: putSequence bs
  | .decode => [0x02#8]
  | .reset => [0x03#8]
  | .crcInit => [0x10#8]
  | .crcAcc b => [0x11#8, b]
  | .crcGet => [0x12#8]
  | .crcCompute bs seed => 0x13#8 :: (putSequence bs ++ [seed])
  | .getMagic fr => 0x20#8 :: fr.bytes
  | .getPayloadLength fr => 0x21#8 :: fr.bytes
  | .getIncompatFlags fr => 0x22#8 :: fr.bytes
  | .getCompatFlags fr => 0x23#8 :: fr.bytes
  | .getSequence fr => 0x24#8 :: fr.bytes
  | .getSystemId fr => 0x25#8 :: fr.bytes
  | .getComponentId fr => 0x26#8 :: fr.bytes
  | .getMessageId fr => 0x27#8 :: fr.bytes
  | .getPayload fr => 0x28#8 :: fr.bytes
  | .getChecksum fr => 0x29#8 :: fr.bytes
  | .getSignature fr => 0x2A#8 :: fr.bytes
  | .signatureLength fr => 0x2B#8 :: fr.bytes
  | .rawBytes fr => 0x2C#8 :: fr.bytes
  | .hasValidCrc fr => 0x2D#8 :: fr.bytes
  | .setMagic fr v => 0x30#8 :: (fr.bytes ++ [v])
  | .setPayloadLength fr v => 0x31#8 :: (fr.bytes ++ [v])
  | .setIncompatFlags fr v => 0x32#8 :: (fr.bytes ++ [v])
  | .setCompatFlags fr v => 0x33#8 :: (fr.bytes ++ [v])
  | .setSequence fr v => 0x34#8 :: (fr.bytes ++ [v])
  | .setSystemId fr v => 0x35#8 :: (fr.bytes ++ [v])
  | .setComponentId fr v => 0x36#8 :: (fr.bytes ++ [v])
  | .setMessageId fr v => 0x37#8 :: (fr.bytes ++ leBytes 3 v.toNat)
  | .setPayload fr bs => 0x38#8 :: (fr.bytes ++ putSequence bs)
  | .setChecksum fr v => 0x39#8 :: (fr.bytes ++ leBytes 2 v.toNat)
  | .setSignature fr bs => 0x3A#8 :: (fr.bytes ++ putSequence bs)
  | .frameV2Unsigned h => putFields h
  | .frameV2Signed h sig => putFields h ++ putSignature sig

/-- More bytes than any instruction has whose words above the table's bits are zero: 280 for a RawFrame, the counts and
values after it, and the 280 of a frame. -/
abbrev tablePadding : Nat := 300

/-- The bytes of a table word: the `nbits` bits of `w`, lowest byte first, then bytes of zero. -/
def tableBytes (nbits w : Nat) : List Byte := leBytes ((nbits + 7) / 8) (w % 2 ^ nbits) ++ List.replicate tablePadding 0#8

/-- The format of a table word: the first byte of a frame is the marker, and no command code is (R65). -/
def tableFormat (bs : List Byte) : Format := if bs.head? = some Config.marker then .frame else .cmd8

/-- A table word at the port: exactly the bytes of its instruction where there is one, all its bytes otherwise. -/
def tableInstructionBytes (nbits w : Nat) : List Byte :=
  match decodePort Config.params (tableFormat (tableBytes nbits w)) (tableBytes nbits w) with
  | .ok _ rest => (tableBytes nbits w).take ((tableBytes nbits w).length - rest.length)
  | .error _ => tableBytes nbits w

/-- The instruction that the decoder reads from a table word (the host's name and form). -/
def decodeTableWord (nbits w : Nat) : Option Instr :=
  match decodePort Config.params (tableFormat (tableBytes nbits w)) (tableBytes nbits w) with
  | .ok i _ => some i
  | .error _ => none

end Sys2Proof
end

