-- ==== Sys2Proof/Machine/Fetch.lean ====
section
/-! DEFINITION. Taking the next instruction from the command port (R65, R66; logs 1, 10, 13). -/

namespace Sys2Proof.Machine

open Sys2Proof

/-- What stands at the command port. -/
inductive Fetched where
  /-- An instruction, and the state in which its bytes have left the port. -/
  | instruction (i : Instr) (s : State)
  /-- A byte of the link at which no whole frame begins, and the state in which it has left the port. -/
  | linkByte (b : Byte) (s : State)
  /-- No operation has been issued yet. -/
  | idle
  /-- What is presented is no instruction. -/
  | refused (r : Refusal)
  deriving DecidableEq, Repr

/-- The bytes at the port are read in the format announced. With nothing presented, or with a command not yet wholly
presented, no operation has been issued (log 10). A command code that is not in the table is refused by name
(R201 (e)). Nothing on the link is refused: the decoder is total on every byte sequence (R63), so a byte at which no
whole frame begins is taken by itself (log 4). -/
def fetch (p : Config.Params) (s : State) : Fetched :=
  match decodePort p s.port.format s.port.bytes with
  | .ok i rest => .instruction i { s with port := { s.port with bytes := rest } }
  | .error .empty => .idle
  | .error .truncated => .idle
  | .error (.unknownCommand code) => .refused (.unknownCommand code)
  | .error (.noWholeFrame b others) => .linkByte b { s with port := { s.port with bytes := others } }

/-- The port when the host presents one table word and nothing else. -/
def tablePort (nbits w : Nat) : Port :=
  { format := tableFormat (tableBytes nbits w), bytes := tableInstructionBytes nbits w }

end Sys2Proof.Machine
end

