-- ==== Sys2Proof/Machine/Step.lean ====
section
/-! DEFINITION. One step: the instruction the host presents at the command port is taken and executed. -/

namespace Sys2Proof.Machine

open Sys2Proof

/-- One step of the machine: the instruction at the command port is taken and executed, atomically (R38); where the link
brings a byte at which no whole frame begins, that byte arrives. With no operation issued the block does nothing
(R220). -/
def step (s : State) : Host.Outcome State Fault Refusal :=
  match fetch Config.params s with
  | .instruction i t => exec i t
  | .linkByte b t => execLinkByte b t
  | .idle => .next s
  | .refused r => .refused r

/-- The state with the instruction of a table word at the command port (the host's name and form; log 13). -/
def State.withFetchWord (s : State) (nbits w : Nat) : State := { s with port := tablePort nbits w }

end Sys2Proof.Machine
end

