-- ==== Sys2Proof/Machine/Pseudo.lean ====
section
/-! DEFINITION. The pseudo-operations of R68: sequences of the block's own operations, adding no behaviour. -/

namespace Sys2Proof.Machine

open Sys2Proof

/-- A sequence of operations, one after another (R38); it stops at the first that is refused. -/
def execAll : List Instr → State → Host.Outcome State Fault Refusal
  | [], s => .next s
  | i :: is, s =>
    match exec i s with
    | .next t => execAll is t
    | .fault r => .fault r
    | .refused r => .refused r

/-- `NEXT`: `RESET` then `DECODE`. -/
def pseudoNext : List Instr := [.reset, .decode]

/-- The expansion of `CRC_COMPUTE bs, seed`: unlike the one-shot operation it changes `ACC`. -/
def pseudoCrcCompute (bs : List Byte) (seed : Byte) : List Instr :=
  .crcInit :: (bs.map Instr.crcAcc ++ [.crcAcc seed, .crcGet])

/-- `DRAIN`'s loop, at most `k` turns of it: `DECODE`; a frame is delivered and `RESET` issued; until `NeedMore`. -/
def drainLoop (p : Config.Params) : Nat → State → List RawFrame × State
  | 0, s => ([], s)
  | k + 1, s =>
    match (runDecode p s).result with
    | .frame fr =>
      let (frames, t) := drainLoop p k ((runDecode p s).reinit.answer .none)
      (fr :: frames, t)
    | _ => ([], runDecode p s)

/-- `DRAIN`: the frames the bytes present allow, in order, and the state at the `NeedMore` that ends it. The first
`DECODE` may return without removing a byte (R150); each later frame has removed at least its marker (R149); so
`SB.len + 2` turns are enough. -/
def drain (p : Config.Params) (s : State) : List RawFrame × State := drainLoop p (s.sb.length + 2) s

/-- Each chunk is pushed and `DRAIN` follows it, in turn (R181); no value where a `PUSH` is not enabled. -/
def feed (p : Config.Params) : List (List Byte) → State → Option (List RawFrame × State)
  | [], s => some ([], s)
  | c :: cs, s =>
    (s.appendIfFits p c).bind fun t =>
      (feed p cs (drain p t).2).map fun (frames, u) => ((drain p t).1 ++ frames, u)

/-- How `RECV` ends. -/
inductive Received where
  /-- A frame; the chunks the transport still holds, and the state after `RESET`. -/
  | frame (fr : RawFrame) (chunks : List (List Byte)) (s : State)
  /-- The transport holds nothing more: the host waits, after a `NeedMore`. -/
  | waiting (s : State)
  /-- The next chunk does not fit: its `PUSH` is not enabled (R141). -/
  | notEnabled (s : State)
  deriving DecidableEq, Repr

/-- `RECV`, with what the transport will give as a list of chunks: `DECODE`, and on `NeedMore` a chunk is pushed, until
a frame comes back; then `RESET`. -/
def recv (p : Config.Params) : List (List Byte) → State → Received
  | [], s =>
    match (runDecode p s).result with
    | .frame fr => .frame fr [] ((runDecode p s).reinit.answer .none)
    | _ => .waiting (runDecode p s)
  | c :: cs, s =>
    match (runDecode p s).result with
    | .frame fr => .frame fr (c :: cs) ((runDecode p s).reinit.answer .none)
    | _ =>
      match (runDecode p s).appendIfFits p c with
      | some t => recv p cs (t.answer .none)
      | none => .notEnabled (runDecode p s)

end Sys2Proof.Machine
end

