-- ==== Sys2Proof/Safety.lean ====
section
/-! DEFINITION. What a safe run is, in the terms the statements use: what holds of the state for each value of `ST`
(R12), the positions of the ghost values (R9, R18), how a candidate is judged (R63, R193), and which positions of a
stream are returned (R175). -/

namespace Sys2Proof.Machine

open Sys2Proof

/-- The bytes of the array from index `k` on are zero. -/
def ZeroFrom (k : Nat) (fr : RawFrame) : Prop := ∀ i < 280, k ≤ i → fr.byte i = 0#8

/-- What R12 says of `F` for each value of `ST`, with R148's flag test for `VERIFY`. R12's bounds on `SB.len` are apart,
in `Waiting`: they hold after a `DECODE` and not after a later `PUSH` (log 9). -/
def FrameInv (p : Config.Params) (s : State) : Prop :=
  match s.st with
  | .search => s.f = RawFrame.zero
  | .header => s.f.byte 0 = Config.marker ∧ ZeroFrom 1 s.f
  | .payload =>
    s.f.byte 0 = Config.marker ∧ 9 ≤ s.sb.length ∧ s.f.slice 1 10 = s.peekMany 0 9 ∧
      flagsAcceptable p (s.f.byte 2) = true ∧ ZeroFrom 10 s.f
  | .verify =>
    s.f.byte 0 = Config.marker ∧ s.f.frameLength p - 1 ≤ s.sb.length ∧
      s.f.slice 1 (s.f.frameLength p) = s.peekMany 0 (s.f.frameLength p - 1) ∧
      flagsAcceptable p (s.f.byte 2) = true ∧ s.f.hasValidCrc p = true ∧
      ZeroFrom (s.f.frameLength p) s.f

/-- Where the ghost values place the stream buffer in the stream (R9, R18): the front of `SB` is `STREAM[CONS]`, and the
marker of a candidate that is held is `STREAM[CONS - 1]`. -/
def GhostInv (s : State) : Prop :=
  s.ghost.cons ≤ s.ghost.stream.length ∧ s.ghost.stream.drop s.ghost.cons = s.sb ∧
    (s.st ≠ .search → 0 < s.ghost.cons ∧ s.ghost.stream[s.ghost.cons - 1]? = some Config.marker)

/-- The invariant of the block between two operations: R12, the capacity of the stream buffer (R33) and the ghost
positions (R9). -/
def Inv (p : Config.Params) (s : State) : Prop :=
  FrameInv p s ∧ Memory.wf p s.sb = true ∧ GhostInv s

/-- The decoder cannot go on without bytes that are not there: the three `NeedMore` rows of R151. -/
def Waiting (p : Config.Params) (s : State) : Prop :=
  match s.st with
  | .search => s.sb = []
  | .header => s.sb.length < 9
  | .payload => s.sb.length < 9 + s.f.trailingLength p
  | .verify => False

/-- How a candidate is judged, by the bytes that follow its marker (R63, R193). -/
inductive Verdict where
  /-- The bytes present do not decide it yet. -/
  | undecided
  /-- It is rejected. -/
  | rejected (c : RejectCause)
  /-- It is a valid frame. -/
  | valid
  deriving DecidableEq, Repr

/-- The marker and the first `k` of the bytes after it, as a RawFrame value that is zero beyond. -/
def candidateFrame (k : Nat) (after : List Byte) : RawFrame :=
  RawFrame.zero.write 0 (Config.marker :: after.take k)

/-- The judgement of R193, in its order: nine bytes, the flags, `9 + T` bytes, the checksum. -/
def verdict (p : Config.Params) (after : List Byte) : Verdict :=
  if after.length < 9 then .undecided
  else if flagsAcceptable p ((candidateFrame 9 after).byte 2) then
    if after.length < 9 + (candidateFrame 9 after).trailingLength p then .undecided
    else if (candidateFrame (9 + (candidateFrame 9 after).trailingLength p) after).hasValidCrc p then .valid
    else .rejected .crc
  else .rejected .iflags

/-- The frame of a valid occurrence, from the bytes after its marker. -/
def occurrenceFrame (p : Config.Params) (after : List Byte) : RawFrame :=
  candidateFrame (9 + (candidateFrame 9 after).trailingLength p) after

/-- Position `i` of a byte sequence is a marker position (R175). -/
def markerAt (w : List Byte) (i : Nat) : Bool := w[i]? == some Config.marker

/-- Position `i` is a valid occurrence (R175). -/
def validAt (p : Config.Params) (w : List Byte) (i : Nat) : Bool :=
  markerAt w i && (verdict p (w.drop (i + 1)) == .valid)

/-- Position `i` is a marker position that the bytes present do not decide (R175). -/
def undecidedAt (p : Config.Params) (w : List Byte) (i : Nat) : Bool :=
  markerAt w i && (verdict p (w.drop (i + 1)) == .undecided)

/-- The first undecided marker position, or the end of the bytes (R175). -/
def holdPosition (p : Config.Params) (w : List Byte) : Nat :=
  ((List.range w.length).find? (undecidedAt p w)).getD w.length

/-- The frames of the valid occurrences before the first undecided marker position, in increasing order (R175). -/
def validFrames (p : Config.Params) (w : List Byte) : List RawFrame :=
  ((List.range (holdPosition p w)).filter (validAt p w)).map fun i => occurrenceFrame p (w.drop (i + 1))

/-- Two states are the same block: they differ at most in the ghost values, which no operation reads (R9, R21). -/
def SameBlock (s t : State) : Prop :=
  s.st = t.st ∧ s.f = t.f ∧ s.sb = t.sb ∧ s.acc = t.acc ∧ s.port = t.port ∧ s.result = t.result

/-- Two outcomes are alike: both next states, related by `R`, or the same refusal, or the same fault. -/
def Alike (R : State → State → Prop) : Host.Outcome State Fault Refusal → Host.Outcome State Fault Refusal → Prop
  | .next s, .next t => R s t
  | .refused a, .refused b => a = b
  | .fault a, .fault b => a = b
  | _, _ => False

/-- The operand of a command is one RawFrame, its 280 bytes after the command code (R65, R66). -/
def FrameCommand (code : Byte) (mk : RawFrame → Instr) : Prop :=
  ∀ p fr rest, decodePort p .cmd8 (code :: (fr.bytes ++ rest)) = .ok (mk fr) rest

/-- The operands of a command are a RawFrame and a byte (R65, R66). -/
def FrameByteCommand (code : Byte) (mk : RawFrame → Byte → Instr) : Prop :=
  ∀ p fr v rest, decodePort p .cmd8 (code :: (fr.bytes ++ v :: rest)) = .ok (mk fr v) rest

/-- A command without operands (R65). -/
def PlainCommand (code : Byte) (i : Instr) : Prop := ∀ p rest, decodePort p .cmd8 (code :: rest) = .ok i rest

end Sys2Proof.Machine
end

