-- ==== Sys2Proof/Certificates/Slice0/Obligations.lean ====
section
/-! DEFINITION. The statements for the provers. Each docstring names the rule of spec/ it formalises. -/

open Sys2Proof Sys2Proof.Machine

/-! ## The port and its decoder -/

/-- R65, R66, R50: what a well-formed instruction's encoding is read as is that instruction, operands whole, and the
bytes after it are left. Holds for every value of the parameters. -/
def Obligations.DecodeReadsEncodedInstruction : Prop :=
  ∀ (p : Config.Params) (i : Instr) (rest : List Byte), i.wellFormed p = true →
    decodePort p i.format (encode i ++ rest) = .ok i rest

/-- R65, R66, R50, the other direction: whatever the decoder reads is well formed, of the format announced, and the
bytes it took are that instruction's encoding. -/
def Obligations.DecodedBytesAreTheEncoding : Prop :=
  ∀ (p : Config.Params) (format : Format) (bs : List Byte) (i : Instr) (rest : List Byte),
    decodePort p format bs = .ok i rest → i.format = format ∧ i.wellFormed p = true ∧ bs = encode i ++ rest

/-- R65, R66, and the encodings of 95_test_vectors.md programs P8, P9 and P10: words written out decode to the
instruction they stand for. -/
def Obligations.WrittenOutCommandsDecode : Prop :=
  ∀ p : Config.Params,
    decodePort p .cmd8 [0x01#8, 0x06#8, 0x00#8, 0x03#8, 0x51#8, 0x04#8, 0x03#8, 0xA4#8, 0xAC#8] =
        .ok (.push [0x03#8, 0x51#8, 0x04#8, 0x03#8, 0xA4#8, 0xAC#8]) [] ∧
      decodePort p .cmd8 [0x02#8] = .ok .decode [] ∧
      decodePort p .cmd8 [0x03#8] = .ok .reset [] ∧
      decodePort p .cmd8 [0x10#8] = .ok .crcInit [] ∧
      decodePort p .cmd8 [0x11#8, 0x55#8] = .ok (.crcAcc 0x55#8) [] ∧
      decodePort p .cmd8 [0x12#8] = .ok .crcGet [] ∧
      decodePort p .cmd8 [0x13#8, 0x00#8, 0x00#8, 0x00#8] = .ok (.crcCompute [] 0x00#8) []

/-- R201 (e), R65: a byte that is no command code of R65's table is refused at the command port, by name. -/
def Obligations.UnlistedCommandCodeIsRefused : Prop :=
  ∀ (s : State) (code : Byte) (rest : List Byte), s.port = { format := .cmd8, bytes := code :: rest } →
    ¬(0x01#8 ≤ code ∧ code ≤ 0x03#8) → ¬(0x10#8 ≤ code ∧ code ≤ 0x13#8) → ¬(0x20#8 ≤ code ∧ code ≤ 0x2D#8) →
    ¬(0x30#8 ≤ code ∧ code ≤ 0x3A#8) →
    step s = .refused (.unknownCommand code)

/-- R38, R65: a step runs the instruction that stands at the command port, on the state from whose port its bytes have
been taken. -/
def Obligations.StepRunsTheDecodedInstruction : Prop :=
  ∀ (s : State) (i : Instr) (rest : List Byte), i.wellFormed Config.params = true →
    decodePort Config.params s.port.format s.port.bytes = .ok i rest →
    step s = exec i { s with port := { format := s.port.format, bytes := rest } }

/-- R220: with no operation issued the block does nothing. That a command not yet wholly presented has not been issued is
the model's choice (log 10). -/
def Obligations.StepWithoutOperationDoesNothing : Prop :=
  ∀ s : State,
    (s.port.bytes = [] → step s = .next s) ∧
      (decodePort Config.params s.port.format s.port.bytes = .error .truncated → step s = .next s)

/-! ## Parameters and power-on -/

/-- R5: `IFLAG_SIGNED` has exactly one bit set and is a supported bit; `SB_CAP`, where bounded, is at least 279. -/
def Obligations.ParametersMeetTheirConstraints : Prop :=
  ∀ p : Config.Params,
    (∃ k : Fin 8, ∀ j : Fin 8, p.iflagSigned.getLsbD j = decide (j = k)) ∧
      p.iflagSigned &&& p.supportedIflags = p.iflagSigned ∧
      ∀ cap, p.capacity = some cap → 279 ≤ cap

/-- R22, R220: the state after power-on. Zero bytes (log 8), an empty `SB` and `ACC` are the spec's decisions D9, D12, D13; the
ports are the model's own (logs 1, 2). -/
def Obligations.PowerOnState : Prop :=
  State.reset.st = .search ∧ (∀ i < 280, State.reset.f.byte i = 0x00#8) ∧ State.reset.sb = [] ∧
    State.reset.acc = 0xFFFF#16 ∧ State.reset.ghost.cons = 0 ∧ State.reset.port.bytes = []

/-! ## The checksum-16 generator -/

/-- R80: `crc_step` is the formula on unbounded natural numbers, with its two truncations to 8 bits and no other. -/
def Obligations.CrcStepIsTheFormulaOnNaturals : Prop :=
  ∀ (acc : Word16) (b : Byte),
    let t1 := (acc.toNat ^^^ b.toNat) &&& 0xFF
    let t2 := (t1 ^^^ (t1 <<< 4)) &&& 0xFF
    (crcStep acc b).toNat = (acc.toNat >>> 8) ^^^ (t2 <<< 8) ^^^ (t2 <<< 3) ^^^ (t2 >>> 4)

/-- R81: `crc16` starts from the all-ones value, folds the bytes in index order and the seed last, always. -/
def Obligations.CrcFoldsTheBytesThenTheSeed : Prop :=
  (∀ seed : Byte, crc16 [] seed = crcStep 0xFFFF#16 seed) ∧
    (∀ (bs : List Byte) (b seed : Byte), crc16 (bs ++ [b]) seed = crcStep (crc16 bs b) seed) ∧
    (∀ (bs : List Byte) (seed : Byte), crc16 bs seed = crc16Raw (bs ++ [seed])) ∧
    crc16 [] 0x00#8 = 0x0F87#16

/-- R88 (c), (d): `crc_step` is linear over exclusive or. -/
def Obligations.CrcStepIsLinear : Prop :=
  crcStep 0#16 0#8 = 0#16 ∧
    ∀ (a a' : Word16) (b b' : Byte), crcStep (a ^^^ a') (b ^^^ b') = crcStep a b ^^^ crcStep a' b'

/-- R88 (b): for a fixed byte `crc_step` is a bijection of the 16-bit values, for a fixed accumulator it is injective.
-/
def Obligations.CrcStepIsInjective : Prop :=
  (∀ b : Byte, Function.Bijective fun acc : Word16 => crcStep acc b) ∧
    ∀ acc : Word16, Function.Injective fun b : Byte => crcStep acc b

/-- R88 (b): two byte sequences of the same length that differ in exactly one byte have different checksums. -/
def Obligations.OneAlteredByteChangesTheChecksum : Prop :=
  ∀ (before after : List Byte) (b b' : Byte), b ≠ b' →
    crc16Raw (before ++ b :: after) ≠ crc16Raw (before ++ b' :: after)

/-- R88 (b), R180: a frame with one payload byte altered never passes `HAS_VALID_CRC`. -/
def Obligations.AlteredPayloadByteFailsTheCheck : Prop :=
  ∀ (p : Config.Params) (fr : RawFrame) (i : Nat) (b : Byte), fr.hasValidCrc p = true →
    i < (fr.byte 1).toNat → b ≠ fr.byte (10 + i) → (fr.write (10 + i) [b]).hasValidCrc p = false

/-- R83, R84, R85 (operations of the spec's decision D18, codes of its decision D2): the three operations of the
generator complete in every state, with their results; they touch `ACC` at most. That the result port holds no result
after `CRC_INIT` and `CRC_ACC` is the model's choice (log 2). `CRC_GET` after power-on answers the power-on value, which
is the spec's decision D13. -/
def Obligations.GeneratorOperationsComplete : Prop :=
  (PlainCommand 0x10#8 .crcInit ∧ ∀ s, exec .crcInit s = .next { s with acc := 0xFFFF#16, result := .none }) ∧
    ((∀ p b rest, decodePort p .cmd8 (0x11#8 :: b :: rest) = .ok (.crcAcc b) rest) ∧
      ∀ b s, exec (.crcAcc b) s = .next { s with acc := crcStep s.acc b, result := .none }) ∧
    (PlainCommand 0x12#8 .crcGet ∧ (∀ s, exec .crcGet s = .next { s with result := .word16 s.acc }) ∧
      exec .crcGet State.reset = .next { State.reset with result := .word16 0xFFFF#16 })

/-- R86: `CRC_COMPUTE` answers `crc16` of its operands in every state and writes no state; `ACC` is not read. -/
def Obligations.CrcComputeIsThePureFunction : Prop :=
  (∀ p bs seed rest, bs.length < 65536 →
      decodePort p .cmd8 (0x13#8 :: (putSequence bs ++ seed :: rest)) = .ok (.crcCompute bs seed) rest) ∧
    ∀ bs seed s, exec (.crcCompute bs seed) s = .next { s with result := .word16 (crc16 bs seed) }

/-- R68, R81: the expansion of `CRC_COMPUTE` gives the value of the one-shot operation; unlike it, it changes `ACC`. -/
def Obligations.CrcByHandIsCrcCompute : Prop :=
  ∀ (bs : List Byte) (seed : Byte) (s : State),
    execAll (pseudoCrcCompute bs seed) s =
      .next { s with acc := crc16 bs seed, result := .word16 (crc16 bs seed) }

/-- R14: `ACC` is written by `CRC_INIT` and `CRC_ACC` and by nothing else. -/
def Obligations.OnlyTheGeneratorWritesAcc : Prop :=
  ∀ (i : Instr) (s t : State), exec i s = .next t →
    t.acc =
      match i with
      | .crcInit => 0xFFFF#16
      | .crcAcc b => crcStep s.acc b
      | _ => s.acc

/-- R14: `ACC` is read by `CRC_ACC` and `CRC_GET` and by nothing else: another value in it changes nothing else. -/
def Obligations.OnlyTheGeneratorReadsAcc : Prop :=
  ∀ (i : Instr) (s : State) (a : Word16), (∀ b, i ≠ .crcAcc b) → i ≠ .crcGet → i ≠ .crcInit →
    Alike (fun t u => u = { t with acc := a }) (exec i s) (exec i { s with acc := a })

/-! ## RawFrame values: accessors -/

/-- R61, R100: the trailing length and the frame length of every RawFrame value. -/
def Obligations.FrameLengthFollowsBytesOneAndTwo : Prop :=
  ∀ (p : Config.Params) (fr : RawFrame),
    fr.trailingLength p = (fr.byte 1).toNat + 2 + (if fr.byte 2 &&& p.iflagSigned ≠ 0#8 then 13 else 0) ∧
      2 ≤ fr.trailingLength p ∧ fr.trailingLength p ≤ 270 ∧
      fr.frameLength p = 10 + fr.trailingLength p ∧ 12 ≤ fr.frameLength p ∧ fr.frameLength p ≤ 280

/-- R101 to R107: each one-byte accessor answers the byte at its offset and changes nothing. (That `GET_MAGIC` answers
0xFD for every frame that `DECODE` returned is ReturnedFrameStandsInTheStream.) -/
def Obligations.HeaderAccessorsReadTheirByte : Prop :=
  (FrameCommand 0x20#8 .getMagic ∧ FrameCommand 0x21#8 .getPayloadLength ∧ FrameCommand 0x22#8 .getIncompatFlags ∧
      FrameCommand 0x23#8 .getCompatFlags ∧ FrameCommand 0x24#8 .getSequence ∧ FrameCommand 0x25#8 .getSystemId ∧
      FrameCommand 0x26#8 .getComponentId) ∧
    ∀ (fr : RawFrame) (s : State),
      exec (.getMagic fr) s = .next { s with result := .byte (fr.byte 0) } ∧
        exec (.getPayloadLength fr) s = .next { s with result := .byte (fr.byte 1) } ∧
        exec (.getIncompatFlags fr) s = .next { s with result := .byte (fr.byte 2) } ∧
        exec (.getCompatFlags fr) s = .next { s with result := .byte (fr.byte 3) } ∧
        exec (.getSequence fr) s = .next { s with result := .byte (fr.byte 4) } ∧
        exec (.getSystemId fr) s = .next { s with result := .byte (fr.byte 5) } ∧
        exec (.getComponentId fr) s = .next { s with result := .byte (fr.byte 6) }

/-- R108: `GET_MESSAGE_ID` assembles bytes 7, 8 and 9, the least significant first. -/
def Obligations.GetMessageIdIsLittleEndian : Prop :=
  FrameCommand 0x27#8 .getMessageId ∧
    ∀ (fr : RawFrame) (s : State), ∃ v : Word24,
      exec (.getMessageId fr) s = .next { s with result := .word24 v } ∧
        v.toNat = (fr.byte 7).toNat + 256 * (fr.byte 8).toNat + 65536 * (fr.byte 9).toNat

/-- R109 (decision D19 of the spec): `GET_PAYLOAD` answers exactly `n` bytes from offset 10; a byte by index is
defined only below `n`. -/
def Obligations.GetPayloadAnswersExactlyItsLength : Prop :=
  FrameCommand 0x28#8 .getPayload ∧
    ∀ (fr : RawFrame) (s : State), ∃ bs : List Byte,
      exec (.getPayload fr) s = .next { s with result := .bytes bs } ∧
        bs.length = (fr.byte 1).toNat ∧
        (∀ i < (fr.byte 1).toNat, bs[i]? = some (fr.byte (10 + i)) ∧ fr.payloadByte i = some (fr.byte (10 + i))) ∧
        ∀ i, (fr.byte 1).toNat ≤ i → fr.payloadByte i = none

/-- R110: `GET_CHECKSUM` answers the stored checksum, at the place `payload_length` gives, low byte first. -/
def Obligations.GetChecksumReadsTheStoredOne : Prop :=
  FrameCommand 0x29#8 .getChecksum ∧
    ∀ (fr : RawFrame) (s : State), ∃ v : Word16,
      exec (.getChecksum fr) s = .next { s with result := .word16 v } ∧
        v.toNat = (fr.byte (10 + (fr.byte 1).toNat)).toNat + 256 * (fr.byte (11 + (fr.byte 1).toNat)).toNat

/-- R111, R112: the length of the signature, its bytes, and its three parts. -/
def Obligations.SignatureFollowsTheSignedBit : Prop :=
  FrameCommand 0x2A#8 .getSignature ∧ FrameCommand 0x2B#8 .signatureLength ∧
    ∀ (fr : RawFrame) (s : State), ∃ bs : List Byte,
      let n := (fr.byte 1).toNat
      let signed := fr.byte 2 &&& Config.params.iflagSigned ≠ 0#8
      exec (.signatureLength fr) s = .next { s with result := .length (if signed then 13 else 0) } ∧
        exec (.getSignature fr) s = .next { s with result := .bytes bs } ∧
        (¬signed → bs = [] ∧ fr.signatureParts Config.params = none) ∧
        (signed → bs.length = 13 ∧ (∀ i < 13, bs[i]? = some (fr.byte (12 + n + i))) ∧
          ∃ sig, fr.signatureParts Config.params = some sig ∧ sig.mac.length = 6 ∧ bs = putSignature sig)

/-- R113 (derived in the spec): `RAW_BYTES` answers the first `L` bytes, 12 at least and 280 at most. -/
def Obligations.RawBytesIsTheWireFrame : Prop :=
  FrameCommand 0x2C#8 .rawBytes ∧
    ∀ (fr : RawFrame) (s : State), ∃ bs : List Byte,
      exec (.rawBytes fr) s = .next { s with result := .bytes bs } ∧
        bs.length = fr.frameLength Config.params ∧ 12 ≤ bs.length ∧ bs.length ≤ 280 ∧
        ∀ i < fr.frameLength Config.params, bs[i]? = some (fr.byte i)

/-- R115, R82: `HAS_VALID_CRC` compares the checksum recomputed over bytes 1 to `9 + n` and the id's seed with the
stored one; it is a function of bytes 1 to `11 + n` and `SEED`. -/
def Obligations.HasValidCrcRecomputesTheChecksum : Prop :=
  FrameCommand 0x2D#8 .hasValidCrc ∧
    (∀ (fr : RawFrame) (s : State) (covered : List Byte) (id : Word24),
      covered.length = 9 + (fr.byte 1).toNat → (∀ i < covered.length, covered[i]? = some (fr.byte (1 + i))) →
      id.toNat = (fr.byte 7).toNat + 256 * (fr.byte 8).toNat + 65536 * (fr.byte 9).toNat →
      exec (.hasValidCrc fr) s =
        .next
          { s with
            result := .bool
              (decide ((crc16 covered (Config.seed id)).toNat =
                (fr.byte (10 + (fr.byte 1).toNat)).toNat + 256 * (fr.byte (11 + (fr.byte 1).toNat)).toNat)) }) ∧
    ∀ (p : Config.Params) (a b : RawFrame),
      (∀ i, 1 ≤ i → i < 12 + (a.byte 1).toNat → a.byte i = b.byte i) → a.hasValidCrc p = b.hasValidCrc p

/-! ## RawFrame values: mutators -/

/-- R120 to R126: each one-byte mutator answers the array with one byte replaced, and changes nothing else. -/
def Obligations.HeaderMutatorsReplaceOneByte : Prop :=
  (FrameByteCommand 0x30#8 .setMagic ∧ FrameByteCommand 0x31#8 .setPayloadLength ∧
      FrameByteCommand 0x32#8 .setIncompatFlags ∧ FrameByteCommand 0x33#8 .setCompatFlags ∧
      FrameByteCommand 0x34#8 .setSequence ∧ FrameByteCommand 0x35#8 .setSystemId ∧
      FrameByteCommand 0x36#8 .setComponentId) ∧
    ∀ (fr : RawFrame) (v : Byte) (s : State),
      let replaces := fun (i : Instr) (k : Nat) =>
        ∃ fr', exec i s = .next { s with result := .rawFrame fr' } ∧
          ∀ j < 280, fr'.byte j = if j = k then v else fr.byte j
      replaces (.setMagic fr v) 0 ∧ replaces (.setPayloadLength fr v) 1 ∧ replaces (.setIncompatFlags fr v) 2 ∧
        replaces (.setCompatFlags fr v) 3 ∧ replaces (.setSequence fr v) 4 ∧ replaces (.setSystemId fr v) 5 ∧
        replaces (.setComponentId fr v) 6

/-- R127: `SET_MESSAGE_ID` stores the three bytes of the id at offsets 7 to 9, low byte first. -/
def Obligations.SetMessageIdStoresThreeBytes : Prop :=
  (∀ p fr v rest, decodePort p .cmd8 (0x37#8 :: (fr.bytes ++ (leBytes 3 v ++ rest))) =
      .ok (.setMessageId fr (BitVec.ofNat 24 v)) rest) ∧
    ∀ (fr : RawFrame) (v : Word24) (s : State), ∃ fr',
      exec (.setMessageId fr v) s = .next { s with result := .rawFrame fr' } ∧
        fr'.byte 7 = v.extractLsb' 0 8 ∧ fr'.byte 8 = v.extractLsb' 8 8 ∧ fr'.byte 9 = v.extractLsb' 16 8 ∧
        ∀ j < 280, j ≠ 7 → j ≠ 8 → j ≠ 9 → fr'.byte j = fr.byte j

/-- R128 (decision D20 of the spec): `SET_PAYLOAD` stores a sequence of `n` bytes from offset 10 on, and refuses one
of another length. -/
def Obligations.SetPayloadNeedsItsLength : Prop :=
  (∀ p fr bs rest, bs.length < 65536 →
      decodePort p .cmd8 (0x38#8 :: (fr.bytes ++ (putSequence bs ++ rest))) = .ok (.setPayload fr bs) rest) ∧
    (∀ (fr : RawFrame) (bs : List Byte) (s : State), bs.length = (fr.byte 1).toNat → ∃ fr',
      exec (.setPayload fr bs) s = .next { s with result := .rawFrame fr' } ∧
        (∀ i < (fr.byte 1).toNat, some (fr'.byte (10 + i)) = bs[i]?) ∧
        ∀ j < 280, j < 10 ∨ 10 + (fr.byte 1).toNat ≤ j → fr'.byte j = fr.byte j) ∧
    ∀ (fr : RawFrame) (bs : List Byte) (s : State), bs.length ≠ (fr.byte 1).toNat →
      exec (.setPayload fr bs) s = .refused .payloadLengthMismatch

/-- R129: `SET_CHECKSUM` stores its two bytes after the payload, low byte first. -/
def Obligations.SetChecksumStoresTwoBytes : Prop :=
  (∀ p fr v rest, decodePort p .cmd8 (0x39#8 :: (fr.bytes ++ (leBytes 2 v ++ rest))) =
      .ok (.setChecksum fr (BitVec.ofNat 16 v)) rest) ∧
    ∀ (fr : RawFrame) (v : Word16) (s : State), ∃ fr',
      exec (.setChecksum fr v) s = .next { s with result := .rawFrame fr' } ∧
        fr'.byte (10 + (fr.byte 1).toNat) = v.extractLsb' 0 8 ∧
        fr'.byte (11 + (fr.byte 1).toNat) = v.extractLsb' 8 8 ∧
        ∀ j < 280, j ≠ 10 + (fr.byte 1).toNat → j ≠ 11 + (fr.byte 1).toNat → fr'.byte j = fr.byte j

/-- R130 (decision D20 of the spec): `SET_SIGNATURE` stores 13 bytes after the checksum of a signed frame, and refuses
otherwise. That the 13 bytes travel with a count is the model's reading (log 11); that a wrong length is named first
where the frame is unsigned too is the model's (log 17). -/
def Obligations.SetSignatureNeedsASignedFrame : Prop :=
  (∀ p fr bs rest, bs.length < 65536 →
      decodePort p .cmd8 (0x3A#8 :: (fr.bytes ++ (putSequence bs ++ rest))) = .ok (.setSignature fr bs) rest) ∧
    (∀ (fr : RawFrame) (bs : List Byte) (s : State), fr.byte 2 &&& Config.params.iflagSigned ≠ 0#8 → bs.length = 13 →
      ∃ fr', exec (.setSignature fr bs) s = .next { s with result := .rawFrame fr' } ∧
        (∀ i < 13, some (fr'.byte (12 + (fr.byte 1).toNat + i)) = bs[i]?) ∧
        ∀ j < 280, j < 12 + (fr.byte 1).toNat ∨ 25 + (fr.byte 1).toNat ≤ j → fr'.byte j = fr.byte j) ∧
    (∀ (fr : RawFrame) (bs : List Byte) (s : State), fr.byte 2 &&& Config.params.iflagSigned = 0#8 → bs.length = 13 →
      exec (.setSignature fr bs) s = .refused .unsignedFrame) ∧
    ∀ (fr : RawFrame) (bs : List Byte) (s : State), bs.length ≠ 13 →
      exec (.setSignature fr bs) s = .refused .signatureLengthMismatch

/-- R119, R108 to R112, R127 to R130: each mutator writes what its accessor reads. -/
def Obligations.AccessorsReadWhatMutatorsWrote : Prop :=
  ∀ (p : Config.Params) (fr : RawFrame),
    (∀ v : Word24, (fr.setMessageId v).messageId = v) ∧ (∀ v : Word16, (fr.setChecksum v).checksum = v) ∧
      (∀ bs fr', fr.setPayload bs = some fr' → fr'.payload = bs) ∧
      ∀ bs, isSigned p (fr.byte 2) = true → bs.length = 13 → (fr.setSignature bs).signature p = bs

/-- R119, R82: a frame sealed with its own `frame_crc` has a valid checksum. -/
def Obligations.SealedFrameIsValid : Prop :=
  ∀ (p : Config.Params) (fr : RawFrame), (fr.setChecksum (fr.frameCrc p)).hasValidCrc p = true

/-! ## PUSH and RESET -/

/-- R141: a `PUSH` that fits appends its bytes and changes nothing else of the block; exactly one that does not fit is
not enabled. That the result port holds no result after it is the model's choice (log 2). -/
def Obligations.PushAppendsWhatFits : Prop :=
  (∀ p bs rest, bs.length < 65536 →
      decodePort p .cmd8 (0x01#8 :: (putSequence bs ++ rest)) = .ok (.push bs) rest) ∧
    (∀ (bs : List Byte) (s : State),
      (∀ cap, Config.params.capacity = some cap → s.sb.length + bs.length ≤ cap) →
      exec (.push bs) s =
        .next
          { s with
            sb := s.sb ++ bs, result := .none, ghost := { s.ghost with stream := s.ghost.stream ++ bs } }) ∧
    ∀ (bs : List Byte) (s : State),
      exec (.push bs) s = .refused .pushNotEnabled ↔
        ∃ cap, Config.params.capacity = some cap ∧ cap < s.sb.length + bs.length

/-- R141: chunk boundaries carry no meaning: two `PUSH`es with no `DECODE` between leave the state of one. -/
def Obligations.TwoPushesAreOne : Prop :=
  ∀ (a b : List Byte) (s : State), fits Config.params (s.sb.length + (a ++ b).length) = true →
    execAll [.push a, .push b] s = exec (.push (a ++ b)) s

/-- R147: `RESET` sets `ST` to `SEARCH` and all 280 bytes of `F` to zero (the value zero is the spec's decision D9,
log 8); `SB`, `ACC` and `CONS` stay. That the result port holds no result after it is the model's choice (log 2). -/
def Obligations.ResetReinitialisesTheDecoder : Prop :=
  PlainCommand 0x03#8 .reset ∧
    ∀ s : State, ∃ t, exec .reset s = .next t ∧ t.st = .search ∧ (∀ i < 280, t.f.byte i = 0x00#8) ∧ t.sb = s.sb ∧
      t.acc = s.acc ∧ t.ghost = s.ghost ∧ t.port = s.port ∧ t.result = .none

/-! ## DECODE and its steps -/

/-- R143, R151: one byte of the search step. -/
def Obligations.SearchStepConsumesOneByte : Prop :=
  ∀ (p : Config.Params) (s : State), s.st = .search →
    (s.sb = [] → decodeStep p s = .done { s with result := .needMore }) ∧
      (∀ rest, s.sb = 0xFD#8 :: rest → ∃ t, decodeStep p s = .goOn t ∧ t.st = .header ∧ t.sb = rest ∧
        t.f.byte 0 = 0xFD#8 ∧ (∀ i < 280, i ≠ 0 → t.f.byte i = s.f.byte i) ∧ t.acc = s.acc ∧
        t.ghost = { s.ghost with cons := s.ghost.cons + 1 } ∧ t.port = s.port ∧ t.result = s.result) ∧
      ∀ b rest, s.sb = b :: rest → b ≠ 0xFD#8 →
        decodeStep p s = .goOn { s with sb := rest, ghost := { s.ghost with cons := s.ghost.cons + 1 } }

/-- R144 (decision D6 of the spec): the header step. Nothing is consumed; the flags test alone decides. -/
def Obligations.HeaderStepTestsTheFlags : Prop :=
  ∀ (p : Config.Params) (s : State), s.st = .header →
    (s.sb.length < 9 → decodeStep p s = .done { s with result := .needMore }) ∧
      (9 ≤ s.sb.length → s.sb.getD 1 0 &&& ~~~p.supportedIflags ≠ 0#8 →
        decodeStep p s = .goOn (s.reject .iflags)) ∧
      (9 ≤ s.sb.length → s.sb.getD 1 0 &&& ~~~p.supportedIflags = 0#8 → ∃ t, decodeStep p s = .goOn t ∧
        t.st = .payload ∧ (∀ i < 9, some (t.f.byte (1 + i)) = s.sb[i]?) ∧
        (∀ i < 280, i = 0 ∨ 10 ≤ i → t.f.byte i = s.f.byte i) ∧ t.sb = s.sb ∧ t.acc = s.acc ∧ t.ghost = s.ghost ∧
        t.port = s.port ∧ t.result = s.result)

/-- R145 (decision D7 of the spec): the payload step. `T` is taken from `F`; nothing is consumed. -/
def Obligations.PayloadStepCopiesTheTrailingBytes : Prop :=
  ∀ (p : Config.Params) (s : State), s.st = .payload →
    let T := (s.f.byte 1).toNat + 2 + (if s.f.byte 2 &&& p.iflagSigned ≠ 0#8 then 13 else 0)
    (s.sb.length < 9 + T → decodeStep p s = .done { s with result := .needMore }) ∧
      (9 + T ≤ s.sb.length → ∃ t, decodeStep p s = .goOn t ∧ t.st = .verify ∧
        (∀ i < T, some (t.f.byte (10 + i)) = s.sb[9 + i]?) ∧
        (∀ i < 280, i < 10 ∨ 10 + T ≤ i → t.f.byte i = s.f.byte i) ∧ t.sb = s.sb ∧ t.acc = s.acc ∧
        t.ghost = s.ghost ∧ t.port = s.port ∧ t.result = s.result)

/-- R146: the verify step: a matching checksum returns a copy of `F` and leaves the state, another rejects. -/
def Obligations.VerifyStepReturnsOrRejects : Prop :=
  ∀ (p : Config.Params) (s : State), s.st = .verify →
    (s.f.hasValidCrc p = true → decodeStep p s = .done { s with result := .frame s.f }) ∧
      (s.f.hasValidCrc p = false → decodeStep p s = .goOn (s.reject .crc))

/-- R170, R194: the whole effect of a rejection (zero is the spec's decision D9, log 8). The ghost log apart, nothing
records it. -/
def Obligations.RejectionKeepsTheStream : Prop :=
  ∀ (c : RejectCause) (s : State),
    (s.reject c).st = .search ∧ (∀ i < 280, (s.reject c).f.byte i = 0x00#8) ∧ (s.reject c).sb = s.sb ∧
      (s.reject c).acc = s.acc ∧ (s.reject c).ghost.cons = s.ghost.cons ∧
      (s.reject c).ghost.stream = s.ghost.stream ∧ (s.reject c).port = s.port ∧ (s.reject c).result = s.result

/-- R142 (with the spec's decision D8: a rejection does not end the operation): `DECODE` is the loop of its steps, the
step that `ST` names and, if it does not return, the loop again; it completes in every state, with a frame or
`NeedMore`. -/
def Obligations.DecodeIsTheLoopOfItsSteps : Prop :=
  PlainCommand 0x02#8 .decode ∧
    (∀ s : State,
      match decodeStep Config.params s with
      | .done t => exec .decode s = .next t
      | .goOn t => exec .decode s = exec .decode t) ∧
    ∀ s : State, ∃ t, exec .decode s = .next t ∧ (t.result = .needMore ∨ ∃ fr, t.result = .frame fr)

/-- R142, R149, R190: `DECODE` completes in every state, whatever `SB` holds, with `NeedMore` where it cannot go on
without more bytes (there only, by the spec's decision D8, log 15) or with the frame in `F`, its checksum valid; it removes at most the bytes present, from the front;
`ACC`, the ports and `STREAM` stay. -/
def Obligations.DecodeAlwaysReturns : Prop :=
  ∀ s : State, ∃ t n, exec .decode s = .next t ∧ n ≤ s.sb.length ∧ t.sb = s.sb.drop n ∧
    t.ghost.cons = s.ghost.cons + n ∧ t.ghost.stream = s.ghost.stream ∧ t.acc = s.acc ∧ t.port = s.port ∧
    ((t.result = .needMore ∧ Waiting Config.params t) ∨
      (t.result = .frame t.f ∧ t.st = .verify ∧ t.f.hasValidCrc Config.params = true))

/-- R150: `DECODE` without `RESET` after a frame returns the same frame again and changes nothing. Holds for every
value of the parameters, those of the block among them. -/
def Obligations.DecodeWithoutResetReturnsTheSameFrame : Prop :=
  (∀ s, exec .decode s = .next (runDecode Config.params s)) ∧
    ∀ (p : Config.Params) (s : State), s.st = .verify → s.f.hasValidCrc p = true →
      runDecode p s = { s with result := .frame s.f }

/-- R148 (derived here from R12 and R18): a frame returned from a state that meets the invariant has the marker,
acceptable flags and a valid checksum; its bytes after the marker are the front of `SB`, and its `L` bytes stand in
the stream from the candidate's marker on. Holds for every value of the parameters, those of the block among them. -/
def Obligations.ReturnedFrameStandsInTheStream : Prop :=
  (∀ s, exec .decode s = .next (runDecode Config.params s)) ∧
    ∀ (p : Config.Params) (s t : State) (fr : RawFrame), Inv p s → runDecode p s = t → t.result = .frame fr →
      fr.byte 0 = 0xFD#8 ∧ fr.byte 2 &&& ~~~p.supportedIflags = 0#8 ∧ fr.hasValidCrc p = true ∧
        (fr.rawBytes p).drop 1 = t.sb.take (fr.frameLength p - 1) ∧
        fr.rawBytes p = (t.ghost.stream.drop (t.ghost.cons - 1)).take (fr.frameLength p)

/-- R44, R142, R178: after a `NeedMore` at most 278 bytes are left in `SB`: once 279 follow a candidate it is decided.
That `DECODE` answers `NeedMore` only where no progress is possible, and so not after a rejection, is the spec's
decision D8 (log 15). -/
def Obligations.NeedMoreLeavesFewBytes : Prop :=
  ∀ s t : State, exec .decode s = .next t → t.result = .needMore → t.sb.length ≤ 278

/-! ## Invariants and whole-machine rules -/

/-- R12, R22: the state after power-on meets the invariant. That `F` is zero is the spec's decision D9 (log 8), the empty
`SB` its decision D12. -/
def Obligations.PowerOnMeetsTheInvariant : Prop := Inv Config.params State.reset

/-- R12, R33, R9, R18: every step keeps the invariant: what R12 says of `F` for each value of `ST`, the capacity of the
stream buffer, and the place of the buffer and of a held candidate in the stream. The clauses that say where `F` is zero
(in `SEARCH`, and beyond the bytes copied) rest on the spec's decision D9 (log 8). R12's bounds on `SB.len` are not part
of it (log 9). -/
def Obligations.EveryStepKeepsTheInvariant : Prop :=
  ∀ s t : State, Inv Config.params s → step s = .next t → Inv Config.params t

/-- R11, R13, R17: only `DECODE`, `RESET` and a frame's arrival write `ST` and `F`; only `PUSH`, `DECODE` and a frame's
arrival change `SB`; no instruction touches the command port. -/
def Obligations.OnlyDecoderOperationsChangeTheDecoder : Prop :=
  ∀ (i : Instr) (s t : State), exec i s = .next t →
    t.port = s.port ∧
      (i ≠ .decode → i ≠ .reset → (∀ h, i ≠ .frameV2Unsigned h) → (∀ h g, i ≠ .frameV2Signed h g) →
        t.st = s.st ∧ t.f = s.f) ∧
      (i ≠ .decode → (∀ bs, i ≠ .push bs) → (∀ h, i ≠ .frameV2Unsigned h) → (∀ h g, i ≠ .frameV2Signed h g) →
        t.sb = s.sb ∧ t.ghost.stream = s.ghost.stream ∧ t.ghost.cons = s.ghost.cons)

/-- R17, R33, R39: the stream buffer is a FIFO: an instruction adds bytes at the back and removes bytes at the front,
and only `DECODE` (on its own or after a frame's arrival) removes any. -/
def Obligations.StreamBufferIsAFifo : Prop :=
  ∀ (i : Instr) (s t : State), exec i s = .next t → ∃ added n,
    n ≤ (s.sb ++ added).length ∧ t.sb = (s.sb ++ added).drop n ∧ t.ghost.cons = s.ghost.cons + n ∧
      t.ghost.stream = s.ghost.stream ++ added ∧
      (i ≠ .decode → (∀ h, i ≠ .frameV2Unsigned h) → (∀ h g, i ≠ .frameV2Signed h g) → n = 0)

/-- R9, R21: no operation reads the ghost values: on two states of the same block every instruction ends alike. -/
def Obligations.GhostValuesAreNeverRead : Prop :=
  ∀ (i : Instr) (s t : State), SameBlock s t → Alike SameBlock (exec i s) (exec i t)

/-! ## Resynchronisation -/

/-- R63, R143, R173: bytes that are not the marker leave the stream one by one, with no other effect. -/
def Obligations.NoiseIsSkipped : Prop :=
  ∀ (s : State) (noise rest : List Byte), s.st = .search → s.sb = noise ++ rest → 0xFD#8 ∉ noise →
    exec .decode s =
      exec .decode { s with sb := rest, ghost := { s.ghost with cons := s.ghost.cons + noise.length } }

/-- R171, R172, R193: a candidate that the bytes present decide against costs one byte, its marker: the same `DECODE`
goes on at the byte after it. The judgement is R193's, in its order. That `F` is then zero is the spec's decision D9
(log 8), that the same `DECODE` goes on is its decision D8 (R142, R195, log 15). Holds for every value of the parameters, those of
the block among them. -/
def Obligations.FalseStartCostsOneByte : Prop :=
  (∀ s, exec .decode s = .next (runDecode Config.params s)) ∧
    ∀ (p : Config.Params) (s : State) (after : List Byte) (c : RejectCause), s.st = .search → s.sb = 0xFD#8 :: after →
      verdict p after = .rejected c →
      runDecode p s =
        runDecode p
          { s with
            f := RawFrame.zero, sb := after
            ghost :=
              { s.ghost with
                cons := s.ghost.cons + 1, rejections := s.ghost.rejections ++ [(c, s.ghost.cons + 1)] } }

/-- R175: from the search, `DRAIN` returns exactly the valid occurrences before the first marker position that the bytes
present do not decide, in increasing order, and ends held there or with `SB` empty. -/
def Obligations.DrainReturnsExactlyTheValidOccurrences : Prop :=
  ∀ (p : Config.Params) (s : State), s.st = .search →
    (drain p s).1.map (RawFrame.rawBytes p) = (validFrames p s.sb).map (RawFrame.rawBytes p) ∧
      (drain p s).2.sb = s.sb.drop (holdPosition p s.sb + 1) ∧
      ((drain p s).2.st = .search ↔ holdPosition p s.sb = s.sb.length) ∧
      Waiting p (drain p s).2

/-- R181: the frames that come out and the end state depend on the bytes and not on how they were cut into chunks. -/
def Obligations.ChunkingDoesNotMatter : Prop :=
  ∀ (p : Config.Params) (s : State) (c : List Byte) (cs : List (List Byte)),
    fits p (s.sb.length + (c :: cs).flatten.length) = true → feed p (c :: cs) s = feed p [(c :: cs).flatten] s

/-- R182, with the simple side condition that no byte of a frame after its first is the marker: valid frames back to
back come out in order, bit-identical, and nothing is left. -/
def Obligations.BackToBackFramesComeOutInOrder : Prop :=
  ∀ (p : Config.Params) (s : State) (frames : List RawFrame), s.st = .search → s.sb = [] →
    (∀ fr ∈ frames, fr.byte 0 = 0xFD#8 ∧ flagsAcceptable p (fr.byte 2) = true ∧ fr.hasValidCrc p = true ∧
      ∀ i, 1 ≤ i → i < fr.frameLength p → fr.byte i ≠ 0xFD#8) →
    (drain p (s.append (frames.flatMap (RawFrame.rawBytes p)))).1.map (RawFrame.rawBytes p) =
        frames.map (RawFrame.rawBytes p) ∧
      (drain p (s.append (frames.flatMap (RawFrame.rawBytes p)))).2.st = .search ∧
      (drain p (s.append (frames.flatMap (RawFrame.rawBytes p)))).2.sb = []

/-! ## Frames on the link -/

/-- R50, R141, R142: a whole frame that arrives and fits is appended to the stream and the decoder runs on the stream.
That a frame row of the table means this is the model's choice (log 4). -/
def Obligations.FrameArrivalRunsTheDecoder : Prop :=
  ∀ s : State,
    (∀ h, fits Config.params (s.sb.length + (encode (.frameV2Unsigned h)).length) = true →
      exec (.frameV2Unsigned h) s = exec .decode (s.append (encode (.frameV2Unsigned h))) ∧
        ∃ t, exec (.frameV2Unsigned h) s = .next t) ∧
      (∀ h g, fits Config.params (s.sb.length + (encode (.frameV2Signed h g)).length) = true →
        exec (.frameV2Signed h g) s = exec .decode (s.append (encode (.frameV2Signed h g))) ∧
          ∃ t, exec (.frameV2Signed h g) s = .next t) ∧
      (∀ h, exec (.frameV2Unsigned h) s = .refused .pushNotEnabled ↔
        fits Config.params (s.sb.length + (encode (.frameV2Unsigned h)).length) = false) ∧
      ∀ h g, exec (.frameV2Signed h g) s = .refused .pushNotEnabled ↔
        fits Config.params (s.sb.length + (encode (.frameV2Signed h g)).length) = false

/-- R50, R59, R181 ("eventually yields a RawFrame bit-identical to F"): a well-formed frame with acceptable flags
and the right checksum, arriving at a decoder that searches and holds no bytes, is returned at once and whole; its bytes after the marker stay
in `SB`. The longest signed frame has 280 bytes and `SB_CAP` may be 279, so a signed frame must also fit (R141). -/
def Obligations.ValidFrameIsReturnedWhole : Prop :=
  ∀ s : State, s.st = .search → s.sb = [] →
    (∀ h, (Instr.frameV2Unsigned h).wellFormed Config.params = true →
      h.incompatFlags &&& ~~~Config.params.supportedIflags = 0#8 →
      h.checksum = crc16 (((encode (.frameV2Unsigned h)).drop 1).take (9 + h.payload.length)) (Config.seed h.messageId) →
      ∃ t fr, exec (.frameV2Unsigned h) s = .next t ∧ t.result = .frame fr ∧ t.st = .verify ∧
        fr.rawBytes Config.params = encode (.frameV2Unsigned h) ∧ t.sb = (encode (.frameV2Unsigned h)).drop 1) ∧
      ∀ h g, (Instr.frameV2Signed h g).wellFormed Config.params = true →
        h.incompatFlags &&& ~~~Config.params.supportedIflags = 0#8 →
        (∀ cap, Config.params.capacity = some cap → (encode (.frameV2Signed h g)).length ≤ cap) →
        h.checksum =
          crc16 (((encode (.frameV2Signed h g)).drop 1).take (9 + h.payload.length)) (Config.seed h.messageId) →
        ∃ t fr, exec (.frameV2Signed h g) s = .next t ∧ t.result = .frame fr ∧ t.st = .verify ∧
          fr.rawBytes Config.params = encode (.frameV2Signed h g) ∧ t.sb = (encode (.frameV2Signed h g)).drop 1

/-- R63, R190, R141, R142: the link is total on every byte sequence. (1) Whatever bytes stand there, if they fit, the step
takes some of them from the front, all the bytes of a frame or one byte, and is `DECODE` on the stream with them appended.
(2) Only bytes that do not fit are not enabled. (3) A byte that is not the marker, arriving at a decoder that searches and
holds no bytes, is skipped. (4) A frame's arrival is the arrival of its encoding. (5) For every value of the parameters, a
frame with an unsupported flag bit, arriving at a decoder that searches and holds no bytes, is rejected with `REJ_IFLAGS`
and no error: the same `DECODE` goes on at the byte after its marker. What stands at the link, and that `DECODE` follows
each arrival, are the model's choice (log 4); zero in `F` and going on are the spec's decisions D9 (log 8) and D8
(log 15). -/
def Obligations.LinkIsTotalOnEveryByteSequence : Prop :=
  (∀ (s : State) (bs : List Byte), s.port = { format := .frame, bytes := bs } → bs ≠ [] →
      fits Config.params (s.sb.length + bs.length) = true →
      ∃ t taken rest, bs = taken ++ rest ∧ ((∃ b, taken = [b]) ∨ ∃ i : Instr, i.format = .frame ∧ taken = encode i) ∧
        step s = .next t ∧
        exec .decode (State.append { s with port := { format := .frame, bytes := rest } } taken) = .next t) ∧
    (∀ (s : State) (r : Refusal), s.port.format = .frame → step s = .refused r → r = .pushNotEnabled) ∧
    (∀ (s : State) (b : Byte) (rest : List Byte), s.port = { format := .frame, bytes := b :: rest } → s.st = .search →
      s.sb = [] → b ≠ 0xFD#8 →
      step s =
        .next
          { s with
            port := { format := .frame, bytes := rest }, result := .needMore
            ghost := { s.ghost with cons := s.ghost.cons + 1, stream := s.ghost.stream ++ [b] } }) ∧
    (∀ (i : Instr) (s : State), i.format = .frame → exec i s = receiveBytes Config.params (encode i) s) ∧
    ∀ (p : Config.Params) (s : State) (i : Instr) (flags : Byte), s.st = .search → s.sb = [] → i.format = .frame →
      (encode i)[2]? = some flags → flags &&& ~~~p.supportedIflags ≠ 0#8 → fits p (encode i).length = true →
      receiveBytes p (encode i) s =
        .next
          (runDecode p
            { s with
              f := RawFrame.zero, sb := (encode i).drop 1
              ghost :=
                { cons := s.ghost.cons + 1, stream := s.ghost.stream ++ encode i
                  rejections := s.ghost.rejections ++ [(.iflags, s.ghost.cons + 1)] } })
end

