-- ==== Sys2Proof/Laws/Crc.lean ====
section
/-! SUPPORT. The fold of `crc_step`, one byte and one sequence at a time (R81). -/

namespace Sys2Proof.Machine

open Sys2Proof

@[simp] theorem crc16Raw_nil : crc16Raw [] = Config.crcInitValue := rfl

theorem crc16Raw_append (xs ys : List Byte) : crc16Raw (xs ++ ys) = ys.foldl crcStep (crc16Raw xs) := by
  simp [crc16Raw]

theorem crc16Raw_concat (xs : List Byte) (b : Byte) : crc16Raw (xs ++ [b]) = crcStep (crc16Raw xs) b := by
  simp [crc16Raw]

end Sys2Proof.Machine
end

