-- ==== Sys2Proof/Laws/Operands.lean ====
section
/-! SUPPORT. Each reader of an operand form reads back what its writer wrote, and leaves what comes after (R66, R60). -/

namespace Sys2Proof.Machine

open Sys2Proof

theorem takeBytes_append (bs rest : List Byte) : takeBytes bs.length (bs ++ rest) = some (bs, rest) := by
  simp [takeBytes]

/-- Everything a successful `takeBytes` says. -/
theorem takeBytes_eq_some {n : Nat} {bs v rest : List Byte} (h : takeBytes n bs = some (v, rest)) :
    bs = v ++ rest ∧ v.length = n := by
  simp only [takeBytes] at h
  split at h
  · cases h
    exact ⟨(List.take_append_drop n bs).symm, by simpa using ‹n ≤ bs.length›⟩
  · cases h

theorem takeValue_append {k v : Nat} (h : v < 256 ^ k) (rest : List Byte) :
    takeValue k (leBytes k v ++ rest) = some (v, rest) := by
  have := takeBytes_append (leBytes k v) rest
  rw [leBytes_length] at this
  simp [takeValue, this, leNat_leBytes_of_lt h]

/-- Everything a successful `takeValue` says. -/
theorem takeValue_eq_some {k v : Nat} {bs rest : List Byte} (h : takeValue k bs = some (v, rest)) :
    bs = leBytes k v ++ rest ∧ v < 256 ^ k := by
  simp only [takeValue, Option.map_eq_some_iff] at h
  obtain ⟨⟨w, r⟩, hw, heq⟩ := h
  cases heq
  obtain ⟨rfl, rfl⟩ := takeBytes_eq_some hw
  exact ⟨by rw [leBytes_leNat], leNat_lt w⟩

theorem takeSequence_append {bs : List Byte} (h : bs.length < 65536) (rest : List Byte) :
    takeSequence (putSequence bs ++ rest) = some (bs, rest) := by
  simp [takeSequence, putSequence, takeValue_append (k := 2) h, takeBytes_append]

/-- Everything a successful `takeSequence` says. -/
theorem takeSequence_eq_some {bs v rest : List Byte} (h : takeSequence bs = some (v, rest)) :
    bs = putSequence v ++ rest ∧ v.length < 65536 := by
  simp only [takeSequence, Option.bind_eq_some_iff] at h
  obtain ⟨⟨n, r⟩, hn, hv⟩ := h
  obtain ⟨rfl, hlt⟩ := takeValue_eq_some hn
  obtain ⟨rfl, rfl⟩ := takeBytes_eq_some hv
  exact ⟨by simp [putSequence], hlt⟩

theorem takeFrame_append (fr : RawFrame) (rest : List Byte) : takeFrame (fr.bytes ++ rest) = some (fr, rest) := by
  have h := fr.size_eq
  obtain ⟨bytes, _⟩ := fr
  simp only [takeFrame]
  rw [dif_pos (by rw [List.length_append]; omega)]
  congr 2
  · congr 1
    rw [← h, List.take_left]
  · rw [← h, List.drop_left]

/-- Everything a successful `takeFrame` says. -/
theorem takeFrame_eq_some {bs rest : List Byte} {fr : RawFrame} (h : takeFrame bs = some (fr, rest)) :
    bs = fr.bytes ++ rest := by
  simp only [takeFrame] at h
  split at h
  · cases h
    exact (List.take_append_drop 280 bs).symm
  · cases h

theorem takeSignature_append {sig : Signature} (h : sig.mac.length = 6) (rest : List Byte) :
    takeSignature (putSignature sig ++ rest) = some (sig, rest) := by
  have h1 := takeValue_append (k := 6) sig.timestamp.isLt (sig.mac ++ rest)
  have h2 := takeBytes_append sig.mac rest
  rw [h] at h2
  simp [takeSignature, putSignature, takeByte, h1, h2]

/-- Everything a successful `takeSignature` says. -/
theorem takeSignature_eq_some {bs rest : List Byte} {sig : Signature} (h : takeSignature bs = some (sig, rest)) :
    bs = putSignature sig ++ rest ∧ sig.mac.length = 6 := by
  simp only [takeSignature, Option.bind_eq_some_iff, Option.map_eq_some_iff] at h
  obtain ⟨⟨l, r1⟩, hl, ⟨t, r2⟩, ht, ⟨m, r3⟩, hm, heq⟩ := h
  cases heq
  obtain ⟨rfl, hlt⟩ := takeValue_eq_some ht
  obtain ⟨rfl, hm6⟩ := takeBytes_eq_some hm
  cases bs with
  | nil => cases hl
  | cons b bs =>
    cases hl
    have hlt' : t < 281474976710656 := hlt
    exact ⟨by simp [putSignature, Nat.mod_eq_of_lt hlt'], hm6⟩

end Sys2Proof.Machine
end

