-- ==== Sys2Proof/Laws/Decode.lean ====
section
/-! SUPPORT. What each operand reader of the port's decoder reads of what was written for it, and what a reader that
succeeds has read (R65, R66); and the same of the wire formats (R50). -/

namespace Sys2Proof

open Machine

variable {rest : List Byte} {i : Instr}

theorem readSequence_append (f : List Byte → Instr) {bs : List Byte} (h : bs.length < 65536) (rest : List Byte) :
    readSequence f (putSequence bs ++ rest) = some (f bs, rest) := by
  simp [readSequence, takeSequence_append h]

theorem readSequenceByte_append (f : List Byte → Byte → Instr) {bs : List Byte} (h : bs.length < 65536) (b : Byte)
    (rest : List Byte) : readSequenceByte f (putSequence bs ++ b :: rest) = some (f bs b, rest) := by
  simp [readSequenceByte, takeSequence_append h, readByte, takeByte]

theorem readFrame_append (f : RawFrame → Instr) (fr : RawFrame) (rest : List Byte) :
    readFrame f (fr.bytes ++ rest) = some (f fr, rest) := by
  simp [readFrame, takeFrame_append]

theorem readFrameByte_append (f : RawFrame → Byte → Instr) (fr : RawFrame) (v : Byte) (rest : List Byte) :
    readFrameByte f (fr.bytes ++ v :: rest) = some (f fr v, rest) := by
  simp [readFrameByte, takeFrame_append, readByte, takeByte]

theorem readFrameSequence_append (f : RawFrame → List Byte → Instr) (fr : RawFrame) {bs : List Byte}
    (h : bs.length < 65536) (rest : List Byte) :
    readFrameSequence f (fr.bytes ++ (putSequence bs ++ rest)) = some (f fr bs, rest) := by
  simp [readFrameSequence, takeFrame_append, readSequence_append _ h]

theorem readFrameValue_append (k : Nat) (f : RawFrame → Nat → Instr) (fr : RawFrame) {v : Nat} (h : v < 256 ^ k)
    (rest : List Byte) : readFrameValue k f (fr.bytes ++ (leBytes k v ++ rest)) = some (f fr v, rest) := by
  simp [readFrameValue, takeFrame_append, takeValue_append h]

theorem readByte_eq_some {f : Byte → Instr} {bs : List Byte} (h : readByte f bs = some (i, rest)) :
    ∃ b, bs = b :: rest ∧ i = f b := by
  cases bs with
  | nil => cases h
  | cons b bs =>
    cases h
    exact ⟨b, rfl, rfl⟩

theorem readSequence_eq_some {f : List Byte → Instr} {bs : List Byte} (h : readSequence f bs = some (i, rest)) :
    ∃ v, bs = putSequence v ++ rest ∧ v.length < 65536 ∧ i = f v := by
  simp only [readSequence, Option.map_eq_some_iff] at h
  obtain ⟨⟨v, r⟩, hv, he⟩ := h
  cases he
  obtain ⟨rfl, hl⟩ := takeSequence_eq_some hv
  exact ⟨v, rfl, hl, rfl⟩

theorem readSequenceByte_eq_some {f : List Byte → Byte → Instr} {bs : List Byte}
    (h : readSequenceByte f bs = some (i, rest)) :
    ∃ v b, bs = putSequence v ++ b :: rest ∧ v.length < 65536 ∧ i = f v b := by
  simp only [readSequenceByte, Option.bind_eq_some_iff] at h
  obtain ⟨⟨v, r⟩, hv, he⟩ := h
  obtain ⟨rfl, hl⟩ := takeSequence_eq_some hv
  obtain ⟨b, rfl, rfl⟩ := readByte_eq_some he
  exact ⟨v, b, rfl, hl, rfl⟩

theorem readFrame_eq_some {f : RawFrame → Instr} {bs : List Byte} (h : readFrame f bs = some (i, rest)) :
    ∃ fr : RawFrame, bs = fr.bytes ++ rest ∧ i = f fr := by
  simp only [readFrame, Option.map_eq_some_iff] at h
  obtain ⟨⟨fr, r⟩, hv, he⟩ := h
  cases he
  exact ⟨fr, takeFrame_eq_some hv, rfl⟩

theorem readFrameByte_eq_some {f : RawFrame → Byte → Instr} {bs : List Byte}
    (h : readFrameByte f bs = some (i, rest)) : ∃ (fr : RawFrame) (b : Byte), bs = fr.bytes ++ b :: rest ∧ i = f fr b := by
  simp only [readFrameByte, Option.bind_eq_some_iff] at h
  obtain ⟨⟨fr, r⟩, hv, he⟩ := h
  obtain ⟨b, rfl, rfl⟩ := readByte_eq_some he
  exact ⟨fr, b, takeFrame_eq_some hv, rfl⟩

theorem readFrameSequence_eq_some {f : RawFrame → List Byte → Instr} {bs : List Byte}
    (h : readFrameSequence f bs = some (i, rest)) :
    ∃ (fr : RawFrame) (v : List Byte), bs = fr.bytes ++ (putSequence v ++ rest) ∧ v.length < 65536 ∧ i = f fr v := by
  simp only [readFrameSequence, Option.bind_eq_some_iff] at h
  obtain ⟨⟨fr, r⟩, hv, he⟩ := h
  obtain ⟨v, rfl, hl, rfl⟩ := readSequence_eq_some he
  exact ⟨fr, v, takeFrame_eq_some hv, hl, rfl⟩

theorem readFrameValue_eq_some {k : Nat} {f : RawFrame → Nat → Instr} {bs : List Byte}
    (h : readFrameValue k f bs = some (i, rest)) :
    ∃ (fr : RawFrame) (v : Nat), bs = fr.bytes ++ (leBytes k v ++ rest) ∧ v < 256 ^ k ∧ i = f fr v := by
  simp only [readFrameValue, Option.bind_eq_some_iff, Option.map_eq_some_iff] at h
  obtain ⟨⟨fr, r⟩, hv, ⟨v, r'⟩, hw, he⟩ := h
  cases he
  obtain ⟨rfl, hl⟩ := takeValue_eq_some hw
  exact ⟨fr, v, takeFrame_eq_some hv, hl, rfl⟩

/-- What follows the marker of a frame is read back, its row chosen by the signed bit of its flags byte. -/
theorem readAfterMarker_append (p : Config.Params) {h : FrameFields} (hl : h.payload.length ≤ 255) (tail : List Byte) :
    readAfterMarker p ((putFields h).drop 1 ++ tail) =
      if isSigned p h.incompatFlags then (takeSignature tail).map fun (sig, r) => (.frameV2Signed h sig, r)
      else some (.frameV2Unsigned h, tail) := by
  have e : (putFields h).drop 1 ++ tail =
      BitVec.ofNat 8 h.payload.length :: h.incompatFlags :: h.compatFlags :: h.sequence :: h.systemId ::
        h.componentId :: BitVec.ofNat 8 h.messageId.toNat :: BitVec.ofNat 8 (h.messageId.toNat / 256) ::
          BitVec.ofNat 8 (h.messageId.toNat / 256 / 256) ::
            (h.payload ++ (leBytes 2 h.checksum.toNat ++ tail)) := by
    simp [putFields, leBytes]
  have hn : (BitVec.ofNat 8 h.payload.length).toNat = h.payload.length := by
    rw [BitVec.toNat_ofNat]
    omega
  have hid : leNat (leBytes 3 h.messageId.toNat) = h.messageId.toNat := leNat_leBytes_of_lt h.messageId.isLt
  simp only [leBytes] at hid
  have hc := takeValue_append (k := 2) h.checksum.isLt tail
  simp only [e, readAfterMarker, readTrailing, hn, hid, takeBytes_append, Option.bind_some, hc]
  simp only [BitVec.ofNat_toNat, BitVec.setWidth_eq]

/-- Everything a successful `readAfterMarker` says. -/
theorem readAfterMarker_eq_some {p : Config.Params} {bs : List Byte} (h : readAfterMarker p bs = some (i, rest)) :
    i.format = .frame ∧ i.wellFormed p = true ∧ Config.marker :: bs = encode i ++ rest := by
  unfold readAfterMarker at h
  split at h
  · rename_i n incompat compat seq sys comp m0 m1 m2 tail
    simp only [readTrailing, Option.bind_eq_some_iff] at h
    obtain ⟨⟨payload, r1⟩, h1, ⟨crc, r2⟩, h2, h⟩ := h
    obtain ⟨rfl, hpl⟩ := takeBytes_eq_some h1
    obtain ⟨rfl, hcrc⟩ := takeValue_eq_some h2
    have hn := n.isLt
    have hid : leBytes 3 (leNat [m0, m1, m2]) = [m0, m1, m2] := leBytes_leNat [m0, m1, m2]
    have hidl : leNat [m0, m1, m2] < 2 ^ 24 := by simpa using leNat_lt [m0, m1, m2]
    have hnn : BitVec.ofNat 8 payload.length = n := by rw [hpl, BitVec.ofNat_toNat, BitVec.setWidth_eq]
    have hcrc' : crc < 2 ^ 16 := by simpa using hcrc
    have put (tail : List Byte) :
        Config.marker :: n :: incompat :: compat :: seq :: sys :: comp :: m0 :: m1 :: m2 ::
            (payload ++ (leBytes 2 crc ++ tail)) =
          putFields ⟨incompat, compat, seq, sys, comp, BitVec.ofNat 24 (leNat [m0, m1, m2]), payload,
            BitVec.ofNat 16 crc⟩ ++ tail := by
      simp only [putFields, BitVec.toNat_ofNat, Nat.mod_eq_of_lt hidl, Nat.mod_eq_of_lt hcrc', hid, hnn]
      simp
    split at h
    · rename_i hs
      simp only [Option.map_eq_some_iff] at h
      obtain ⟨⟨sig, r3⟩, h3, he⟩ := h
      cases he
      obtain ⟨rfl, hmac⟩ := takeSignature_eq_some h3
      exact ⟨rfl, by simp [Instr.wellFormed, FrameFields.wellFormed, hs, hmac]; omega,
        (put _).trans (List.append_assoc _ _ _).symm⟩
    · rename_i hs
      cases h
      exact ⟨rfl, by simp [Instr.wellFormed, FrameFields.wellFormed, hs]; omega, put _⟩
  · cases h

/-- The bytes of a link: a whole frame at their head is an instruction, and otherwise the first byte stands alone. -/
theorem decodePort_frame_cons (p : Config.Params) (b : Byte) (bs : List Byte) :
    decodePort p .frame (b :: bs) = .error (.noWholeFrame b bs) ∨
      ∃ i rest, decodePort p .frame (b :: bs) = .ok i rest ∧ i.format = .frame ∧ i.wellFormed p = true ∧
        b :: bs = encode i ++ rest := by
  simp only [decodePort, decodeLink]
  split
  · exact .inl rfl
  · rename_i i rest h
    split at h
    · rename_i hb
      subst hb
      exact .inr ⟨i, rest, rfl, readAfterMarker_eq_some h⟩
    · cases h

end Sys2Proof
end

