-- ==== Sys2Proof/Laws/Frame.lean ====
section
/-! SUPPORT. What the view of a RawFrame value reads and what a write of it changes (R35, R100, R119): one lemma per
operation, cited instead of unfolding it. -/

namespace Sys2Proof

open Machine

theorem RawFrame.ext {a b : RawFrame} (h : a.bytes = b.bytes) : a = b := by
  cases a; cases b; cases h; rfl

theorem RawFrame.ext_byte {a b : RawFrame} (h : ∀ i < 280, a.byte i = b.byte i) : a = b := by
  apply RawFrame.ext
  apply List.ext_getElem (by rw [a.size_eq, b.size_eq])
  intro i ha hb
  have := h i (by rw [a.size_eq] at ha; exact ha)
  simpa [RawFrame.byte, List.getD_eq_getElem?_getD, List.getElem?_eq_getElem ha, List.getElem?_eq_getElem hb] using this

theorem RawFrame.getElem?_bytes (fr : RawFrame) {i : Nat} (h : i < 280) : fr.bytes[i]? = some (fr.byte i) := by
  have hi : i < fr.bytes.length := by rw [fr.size_eq]; exact h
  simp [RawFrame.byte, List.getD_eq_getElem?_getD, List.getElem?_eq_getElem hi]

@[simp] theorem RawFrame.byte_zero (i : Nat) : RawFrame.zero.byte i = 0#8 := by
  unfold RawFrame.byte RawFrame.zero
  rw [List.getD_eq_getElem?_getD, List.getElem?_replicate]
  split <;> rfl

theorem RawFrame.slice_length (fr : RawFrame) {i j : Nat} (hj : j ≤ 280) : (fr.slice i j).length = j - i := by
  have := fr.size_eq
  simp only [RawFrame.slice, List.length_take, List.length_drop]
  omega

theorem RawFrame.slice_getElem? (fr : RawFrame) {i j k : Nat} (hk : k < j - i) (hj : j ≤ 280) :
    (fr.slice i j)[k]? = some (fr.byte (i + k)) := by
  rw [RawFrame.slice, List.getElem?_take_of_lt hk, List.getElem?_drop, fr.getElem?_bytes (by omega)]

/-- Two bytes from an offset on (R59). -/
theorem RawFrame.slice_two (fr : RawFrame) {i : Nat} (h : i + 2 ≤ 280) : fr.slice i (i + 2) = [fr.byte i, fr.byte (i + 1)] := by
  apply List.ext_getElem?
  intro k
  by_cases hk : k < 2
  · rw [fr.slice_getElem? (by omega) h]
    interval_cases k <;> rfl
  · rw [List.getElem?_eq_none (by rw [fr.slice_length h]; omega), List.getElem?_eq_none (by simp; omega)]

/-- The three bytes of the message id (R57). -/
theorem RawFrame.slice_messageId (fr : RawFrame) : fr.slice 7 10 = [fr.byte 7, fr.byte 8, fr.byte 9] := by
  apply List.ext_getElem?
  intro k
  by_cases hk : k < 3
  · rw [fr.slice_getElem? (by omega) (by omega)]
    interval_cases k <;> rfl
  · rw [List.getElem?_eq_none (by rw [fr.slice_length (by omega)]; omega), List.getElem?_eq_none (by simp; omega)]

/-- Two frames that agree on the bytes of a slice have the same slice. -/
theorem RawFrame.slice_congr {a b : RawFrame} {i j : Nat} (hj : j ≤ 280)
    (h : ∀ k, i ≤ k → k < j → a.byte k = b.byte k) : a.slice i j = b.slice i j := by
  apply List.ext_getElem?
  intro k
  by_cases hk : k < j - i
  · rw [a.slice_getElem? hk hj, b.slice_getElem? hk hj, h (i + k) (by omega) (by omega)]
  · rw [List.getElem?_eq_none (by rw [a.slice_length hj]; omega),
      List.getElem?_eq_none (by rw [b.slice_length hj]; omega)]

/-- Everything a write does: the bytes written, and every other byte of the array as before (R119). -/
theorem RawFrame.write_byte (fr : RawFrame) (off : Nat) (bs : List Byte) {i : Nat} (hi : i < 280) :
    (fr.write off bs).byte i = if off ≤ i ∧ i < off + bs.length then bs.getD (i - off) 0#8 else fr.byte i := by
  have hs := fr.size_eq
  simp only [RawFrame.byte, RawFrame.write, List.getD_eq_getElem?_getD, List.getElem?_take_of_lt hi]
  by_cases h1 : i < off
  · rw [if_neg (by omega), List.append_assoc, List.getElem?_append_left (by rw [List.length_take]; omega),
      List.getElem?_take_of_lt h1]
  · have hl : (fr.bytes.take off).length = off := by rw [List.length_take]; omega
    by_cases h2 : i < off + bs.length
    · rw [if_pos ⟨by omega, h2⟩, List.append_assoc, List.getElem?_append_right (by omega), hl,
        List.getElem?_append_left (by omega)]
    · rw [if_neg (by omega), List.getElem?_append_right (by rw [List.length_append, hl]; omega), List.length_append, hl,
        List.getElem?_drop]
      congr 2
      omega

theorem RawFrame.write_byte_of_lt (fr : RawFrame) {off i : Nat} (bs : List Byte) (hi : i < off) (ho : off ≤ 280) :
    (fr.write off bs).byte i = fr.byte i := by
  rw [fr.write_byte off bs (by omega), if_neg (by omega)]

theorem RawFrame.write_byte_of_ge (fr : RawFrame) {off i : Nat} (bs : List Byte) (hi : off + bs.length ≤ i)
    (hm : i < 280) : (fr.write off bs).byte i = fr.byte i := by
  rw [fr.write_byte off bs hm, if_neg (by omega)]

/-- A write of one byte (R120 to R126). -/
theorem RawFrame.write_one_byte (fr : RawFrame) (off : Nat) (v : Byte) {i : Nat} (hi : i < 280) :
    (fr.write off [v]).byte i = if i = off then v else fr.byte i := by
  rw [fr.write_byte off [v] hi]
  by_cases h : i = off
  · subst h
    simp
  · rw [if_neg (by simp only [List.length_singleton]; omega), if_neg h]

/-- The slice just written is what was written. -/
theorem RawFrame.write_slice (fr : RawFrame) (off : Nat) (bs : List Byte) (h : off + bs.length ≤ 280) :
    (fr.write off bs).slice off (off + bs.length) = bs := by
  apply List.ext_getElem?
  intro k
  by_cases hk : k < bs.length
  · rw [RawFrame.slice_getElem? _ (by omega) h, RawFrame.write_byte _ _ _ (by omega), if_pos (by omega)]
    simp [hk]
  · rw [List.getElem?_eq_none (by rw [RawFrame.slice_length _ h]; omega), List.getElem?_eq_none (by omega)]

theorem RawFrame.payloadLength_le (fr : RawFrame) : fr.payloadLength ≤ 255 := by
  have := (fr.byte 1).isLt
  simp only [RawFrame.payloadLength]
  omega

theorem RawFrame.signatureLength_le (p : Config.Params) (fr : RawFrame) : fr.signatureLength p ≤ 13 := by
  simp only [RawFrame.signatureLength]
  split <;> simp

/-- `T` is a number from 2 to 270 (R61). -/
theorem RawFrame.trailingLength_bounds (p : Config.Params) (fr : RawFrame) :
    2 ≤ fr.trailingLength p ∧ fr.trailingLength p ≤ 270 := by
  have := fr.payloadLength_le
  have := fr.signatureLength_le p
  simp only [RawFrame.trailingLength]
  omega

/-- Every field of every RawFrame value lies inside the array (R100). -/
theorem RawFrame.frameLength_bounds (p : Config.Params) (fr : RawFrame) :
    12 ≤ fr.frameLength p ∧ fr.frameLength p ≤ 280 := by
  have := fr.trailingLength_bounds p
  simp only [RawFrame.frameLength]
  omega

theorem RawFrame.rawBytes_length (p : Config.Params) (fr : RawFrame) : (fr.rawBytes p).length = fr.frameLength p := by
  have := (fr.frameLength_bounds p).2
  rw [RawFrame.rawBytes, RawFrame.slice_length _ this]
  rfl

theorem RawFrame.rawBytes_getElem? (p : Config.Params) (fr : RawFrame) {i : Nat} (h : i < fr.frameLength p) :
    (fr.rawBytes p)[i]? = some (fr.byte i) := by
  have := (fr.frameLength_bounds p).2
  rw [RawFrame.rawBytes, RawFrame.slice_getElem? _ (by omega) this, Nat.zero_add]

/-- `T` looks at bytes 1 and 2 only (R61). -/
theorem RawFrame.trailingLength_congr (p : Config.Params) {a b : RawFrame} (h1 : a.byte 1 = b.byte 1)
    (h2 : a.byte 2 = b.byte 2) : a.trailingLength p = b.trailingLength p := by
  simp only [RawFrame.trailingLength, RawFrame.payloadLength, RawFrame.signatureLength, h1, h2]

/-- `HAS_VALID_CRC` is a function of bytes 1 to `11 + n` and of `SEED` (R115 (d)). -/
theorem RawFrame.hasValidCrc_congr (p : Config.Params) {a b : RawFrame}
    (h : ∀ i, 1 ≤ i → i < 12 + a.payloadLength → a.byte i = b.byte i) : a.hasValidCrc p = b.hasValidCrc p := by
  have hn : b.payloadLength = a.payloadLength := by simp only [RawFrame.payloadLength, h 1 (by omega) (by omega)]
  have hle := a.payloadLength_le
  have hid : a.slice 7 10 = b.slice 7 10 :=
    RawFrame.slice_congr (by omega) fun k _ _ => h k (by omega) (by omega)
  have hcov : a.slice 1 (10 + a.payloadLength) = b.slice 1 (10 + a.payloadLength) :=
    RawFrame.slice_congr (by omega) fun k _ _ => h k (by omega) (by omega)
  have hck : a.slice (10 + a.payloadLength) (12 + a.payloadLength) = b.slice (10 + a.payloadLength) (12 + a.payloadLength) :=
    RawFrame.slice_congr (by omega) fun k _ _ => h k (by omega) (by omega)
  simp only [RawFrame.hasValidCrc, RawFrame.frameCrc, RawFrame.covered, RawFrame.messageId, RawFrame.checksum, hn, hid,
    hcov, hck]

end Sys2Proof
end

