-- ==== Sys2Proof/Laws/State.lean ====
section
/-! SUPPORT. What each named update of the state does to each field: one lemma per field and update, each true by rfl. -/

namespace Sys2Proof.Machine

open Sys2Proof

variable (s : State)

@[simp] theorem State.answer_st (r : Result) : (s.answer r).st = s.st := rfl
@[simp] theorem State.answer_f (r : Result) : (s.answer r).f = s.f := rfl
@[simp] theorem State.answer_sb (r : Result) : (s.answer r).sb = s.sb := rfl
@[simp] theorem State.answer_acc (r : Result) : (s.answer r).acc = s.acc := rfl
@[simp] theorem State.answer_port (r : Result) : (s.answer r).port = s.port := rfl
@[simp] theorem State.answer_result (r : Result) : (s.answer r).result = r := rfl
@[simp] theorem State.answer_ghost (r : Result) : (s.answer r).ghost = s.ghost := rfl

@[simp] theorem State.consume_st : (s.consume).st = s.st := rfl
@[simp] theorem State.consume_f : (s.consume).f = s.f := rfl
@[simp] theorem State.consume_sb : (s.consume).sb = s.sb.tail := rfl
@[simp] theorem State.consume_acc : (s.consume).acc = s.acc := rfl
@[simp] theorem State.consume_port : (s.consume).port = s.port := rfl
@[simp] theorem State.consume_result : (s.consume).result = s.result := rfl
@[simp] theorem State.consume_ghost_cons : (s.consume).ghost.cons = s.ghost.cons + 1 := rfl
@[simp] theorem State.consume_ghost_stream : (s.consume).ghost.stream = s.ghost.stream := rfl
@[simp] theorem State.consume_ghost_rejections : (s.consume).ghost.rejections = s.ghost.rejections := rfl

@[simp] theorem State.append_st (bs : List Byte) : (s.append bs).st = s.st := rfl
@[simp] theorem State.append_f (bs : List Byte) : (s.append bs).f = s.f := rfl
@[simp] theorem State.append_sb (bs : List Byte) : (s.append bs).sb = s.sb ++ bs := rfl
@[simp] theorem State.append_acc (bs : List Byte) : (s.append bs).acc = s.acc := rfl
@[simp] theorem State.append_port (bs : List Byte) : (s.append bs).port = s.port := rfl
@[simp] theorem State.append_result (bs : List Byte) : (s.append bs).result = s.result := rfl
@[simp] theorem State.append_ghost_cons (bs : List Byte) : (s.append bs).ghost.cons = s.ghost.cons := rfl
@[simp] theorem State.append_ghost_stream (bs : List Byte) : (s.append bs).ghost.stream = s.ghost.stream ++ bs := rfl
@[simp] theorem State.append_ghost_rejections (bs : List Byte) : (s.append bs).ghost.rejections = s.ghost.rejections := rfl

@[simp] theorem State.store_st (off : Nat) (bs : List Byte) : (s.store off bs).st = s.st := rfl
@[simp] theorem State.store_f (off : Nat) (bs : List Byte) : (s.store off bs).f = s.f.write off bs := rfl
@[simp] theorem State.store_sb (off : Nat) (bs : List Byte) : (s.store off bs).sb = s.sb := rfl
@[simp] theorem State.store_acc (off : Nat) (bs : List Byte) : (s.store off bs).acc = s.acc := rfl
@[simp] theorem State.store_port (off : Nat) (bs : List Byte) : (s.store off bs).port = s.port := rfl
@[simp] theorem State.store_result (off : Nat) (bs : List Byte) : (s.store off bs).result = s.result := rfl
@[simp] theorem State.store_ghost (off : Nat) (bs : List Byte) : (s.store off bs).ghost = s.ghost := rfl

@[simp] theorem State.goto_st (st : DecoderState) : (s.goto st).st = st := rfl
@[simp] theorem State.goto_f (st : DecoderState) : (s.goto st).f = s.f := rfl
@[simp] theorem State.goto_sb (st : DecoderState) : (s.goto st).sb = s.sb := rfl
@[simp] theorem State.goto_acc (st : DecoderState) : (s.goto st).acc = s.acc := rfl
@[simp] theorem State.goto_port (st : DecoderState) : (s.goto st).port = s.port := rfl
@[simp] theorem State.goto_result (st : DecoderState) : (s.goto st).result = s.result := rfl
@[simp] theorem State.goto_ghost (st : DecoderState) : (s.goto st).ghost = s.ghost := rfl

@[simp] theorem State.reinit_st : (s.reinit).st = .search := rfl
@[simp] theorem State.reinit_f : (s.reinit).f = RawFrame.zero := rfl
@[simp] theorem State.reinit_sb : (s.reinit).sb = s.sb := rfl
@[simp] theorem State.reinit_acc : (s.reinit).acc = s.acc := rfl
@[simp] theorem State.reinit_port : (s.reinit).port = s.port := rfl
@[simp] theorem State.reinit_result : (s.reinit).result = s.result := rfl
@[simp] theorem State.reinit_ghost : (s.reinit).ghost = s.ghost := rfl

@[simp] theorem State.reject_st (c : RejectCause) : (s.reject c).st = .search := rfl
@[simp] theorem State.reject_f (c : RejectCause) : (s.reject c).f = RawFrame.zero := rfl
@[simp] theorem State.reject_sb (c : RejectCause) : (s.reject c).sb = s.sb := rfl
@[simp] theorem State.reject_acc (c : RejectCause) : (s.reject c).acc = s.acc := rfl
@[simp] theorem State.reject_port (c : RejectCause) : (s.reject c).port = s.port := rfl
@[simp] theorem State.reject_result (c : RejectCause) : (s.reject c).result = s.result := rfl
@[simp] theorem State.reject_ghost_cons (c : RejectCause) : (s.reject c).ghost.cons = s.ghost.cons := rfl
@[simp] theorem State.reject_ghost_stream (c : RejectCause) : (s.reject c).ghost.stream = s.ghost.stream := rfl
@[simp] theorem State.reject_ghost_rejections (c : RejectCause) : (s.reject c).ghost.rejections = s.ghost.rejections ++ [(c, s.ghost.cons)] := rfl

@[simp] theorem State.peekMany_eq (i k : Nat) : s.peekMany i k = (s.sb.drop i).take k := rfl

end Sys2Proof.Machine
end

