-- ==== Sys2Proof/Laws/Ops.lean ====
section
/-! SUPPORT. What the shared operations over the stream buffer can do, and that each keeps its canonical form (R33). -/

namespace Sys2Proof.Machine

open Sys2Proof

/-- `n` bytes fit exactly when `SB_CAP` is unbounded or at least `n` (R33, D11). -/
theorem fits_iff (p : Config.Params) (n : Nat) : fits p n = true ↔ ∀ cap, p.capacity = some cap → n ≤ cap := by
  unfold fits Config.Params.capacity
  cases p.extraCapacity with
  | none => simp
  | some k =>
    simp only [Option.map_some, Bool.or_eq_true, decide_eq_true_eq, Option.some.injEq, forall_eq']
    omega

theorem fits_mono {p : Config.Params} {m n : Nat} (h : m ≤ n) (hn : fits p n = true) : fits p m = true := by
  rw [fits_iff] at hn ⊢
  exact fun cap hc => h.trans (hn cap hc)

/-- Any block holds 279 bytes (R44). -/
theorem fits_of_le (p : Config.Params) {n : Nat} (h : n ≤ 279) : fits p n = true := by
  simp [fits, h]

/-- Everything `appendIfFits` can do: the append, where the bytes fit (R141). -/
theorem State.appendIfFits_eq_some {s t : State} {p : Config.Params} {bs : List Byte} :
    s.appendIfFits p bs = some t ↔ fits p (s.sb.length + bs.length) = true ∧ t = s.append bs := by
  by_cases h : fits p (s.sb.length + bs.length) = true <;> simp [State.appendIfFits, h, eq_comm]

theorem State.appendIfFits_of_fits {s : State} {p : Config.Params} {bs : List Byte}
    (h : fits p (s.sb.length + bs.length) = true) : s.appendIfFits p bs = some (s.append bs) :=
  State.appendIfFits_eq_some.mpr ⟨h, rfl⟩

theorem Memory.wf_reset (p : Config.Params) : Memory.wf p State.reset.sb = true := fits_of_le p (by simp [State.reset])

theorem Memory.wf_append {s t : State} {p : Config.Params} {bs : List Byte} (h : s.appendIfFits p bs = some t) :
    Memory.wf p t.sb = true := by
  obtain ⟨hf, rfl⟩ := State.appendIfFits_eq_some.mp h
  simpa [Memory.wf] using hf

theorem Memory.wf_consume {s : State} {p : Config.Params} (h : Memory.wf p s.sb = true) :
    Memory.wf p s.consume.sb = true :=
  fits_mono (by simp) h

theorem Memory.wf_reinit {s : State} {p : Config.Params} (h : Memory.wf p s.sb = true) : Memory.wf p s.reinit.sb = true := h

theorem Memory.wf_reject {s : State} {p : Config.Params} (c : RejectCause) (h : Memory.wf p s.sb = true) :
    Memory.wf p (s.reject c).sb = true := h

theorem Memory.wf_store {s : State} {p : Config.Params} (off : Nat) (bs : List Byte) (h : Memory.wf p s.sb = true) :
    Memory.wf p (s.store off bs).sb = true := h

end Sys2Proof.Machine
end

