-- ==== Sys2Proof/Laws/Decoder.lean ====
section
/-! SUPPORT. What each step of `DECODE` can do, once for each step (R143 to R146, R151); and the induction on `DECODE`'s
loop: what every step keeps holds when `DECODE` returns. -/

namespace Sys2Proof.Machine

open Sys2Proof

variable {p : Config.Params} {s t : State}

/-- The search step goes on (R143): a byte is removed; it was the marker and a candidate is held, or it was not. -/
theorem stepSearch_goOn (h : stepSearch s = .goOn t) :
    (∃ rest, s.sb = Config.marker :: rest ∧ t = (s.consume.store 0 [Config.marker]).goto .header) ∨
      ∃ b rest, s.sb = b :: rest ∧ b ≠ Config.marker ∧ t = s.consume := by
  cases hs : s.sb with
  | nil => simp [stepSearch, hs] at h
  | cons b rest =>
    by_cases hb : b = Config.marker
    · simp only [stepSearch, hs, hb, if_true] at h
      cases h
      exact .inl ⟨rest, by rw [hb], rfl⟩
    · simp only [stepSearch, hs, hb, if_false] at h
      cases h
      exact .inr ⟨b, rest, rfl, hb, rfl⟩

/-- The search step returns (R143): the stream buffer is empty. -/
theorem stepSearch_done (h : stepSearch s = .done t) : s.sb = [] ∧ t = s.answer .needMore := by
  cases hs : s.sb with
  | nil =>
    simp only [stepSearch, hs] at h
    cases h
    exact ⟨rfl, rfl⟩
  | cons b rest =>
    simp only [stepSearch, hs] at h
    split at h <;> cases h

/-- The header step goes on (R144): nine bytes are present and copied; the flags decide. -/
theorem stepHeader_goOn (h : stepHeader p s = .goOn t) :
    9 ≤ s.sb.length ∧
      ((flagsAcceptable p ((s.f.write 1 (s.sb.take 9)).byte 2) = true ∧
          t = (s.store 1 (s.sb.take 9)).goto .payload) ∨
        (flagsAcceptable p ((s.f.write 1 (s.sb.take 9)).byte 2) = false ∧
          t = (s.store 1 (s.sb.take 9)).reject .iflags)) := by
  simp only [stepHeader, State.peekMany_eq, List.drop_zero, State.store_f] at h
  split at h
  · cases h
  · refine ⟨by omega, ?_⟩
    split at h <;> rename_i hf <;> cases h
    · exact .inl ⟨hf, rfl⟩
    · exact .inr ⟨Bool.eq_false_iff.mpr hf, rfl⟩

/-- The header step returns (R144): fewer than nine bytes are present. -/
theorem stepHeader_done (h : stepHeader p s = .done t) : s.sb.length < 9 ∧ t = s.answer .needMore := by
  simp only [stepHeader] at h
  split at h
  · cases h
    exact ⟨‹_›, rfl⟩
  · split at h <;> cases h

/-- The payload step goes on (R145): the trailing bytes are present and copied. -/
theorem stepPayload_goOn (h : stepPayload p s = .goOn t) :
    9 + s.f.trailingLength p ≤ s.sb.length ∧
      t = (s.store 10 ((s.sb.drop 9).take (s.f.trailingLength p))).goto .verify := by
  simp only [stepPayload, State.peekMany_eq] at h
  split at h
  · cases h
  · cases h
    exact ⟨by omega, rfl⟩

/-- The payload step returns (R145): fewer than `9 + T` bytes are present. -/
theorem stepPayload_done (h : stepPayload p s = .done t) :
    s.sb.length < 9 + s.f.trailingLength p ∧ t = s.answer .needMore := by
  simp only [stepPayload] at h
  split at h
  · cases h
    exact ⟨‹_›, rfl⟩
  · cases h

/-- The verify step goes on (R146): the checksum differs and the candidate is rejected. -/
theorem stepVerify_goOn (h : stepVerify p s = .goOn t) : s.f.hasValidCrc p = false ∧ t = s.reject .crc := by
  simp only [stepVerify] at h
  split at h
  · cases h
  · rename_i hc
    cases h
    exact ⟨Bool.eq_false_iff.mpr hc, rfl⟩

/-- The verify step returns (R146): the checksum matches and the frame is returned. -/
theorem stepVerify_done (h : stepVerify p s = .done t) : s.f.hasValidCrc p = true ∧ t = s.answer (.frame s.f) := by
  simp only [stepVerify] at h
  split at h
  · cases h
    exact ⟨‹_›, rfl⟩
  · cases h

/-- With no candidate held the steps after the search do nothing. -/
theorem runCandidate_search (h : s.st = .search) : runCandidate p s = .goOn s := by
  simp [runCandidate, stepIn, h, StepResult.andThen]

/-- With a candidate held, the steps after the search are the step that `ST` names and then the rest of them. -/
theorem runCandidate_step (h : s.st ≠ .search) : runCandidate p s = (decodeStep p s).andThen (runCandidate p) := by
  cases hst : s.st with
  | search => exact absurd hst h
  | header =>
    cases hr : stepHeader p s with
    | done t => simp [runCandidate, decodeStep, stepIn, hst, StepResult.andThen, hr]
    | goOn t =>
      obtain ⟨-, ⟨-, rfl⟩ | ⟨-, rfl⟩⟩ := stepHeader_goOn hr <;>
        simp [runCandidate, decodeStep, stepIn, hst, StepResult.andThen, hr]
  | payload =>
    cases hr : stepPayload p s with
    | done t => simp [runCandidate, decodeStep, stepIn, hst, StepResult.andThen, hr]
    | goOn t =>
      obtain ⟨-, rfl⟩ := stepPayload_goOn hr
      simp [runCandidate, decodeStep, stepIn, hst, StepResult.andThen, hr]
  | verify =>
    cases hr : stepVerify p s with
    | done t => simp [runCandidate, decodeStep, stepIn, hst, StepResult.andThen, hr]
    | goOn t =>
      obtain ⟨-, rfl⟩ := stepVerify_goOn hr
      simp [runCandidate, decodeStep, stepIn, hst, StepResult.andThen, hr]

/-- The number of steps a candidate still has before it returns or is rejected. -/
def stepsLeft : DecoderState → Nat
  | .search => 0
  | .header => 3
  | .payload => 2
  | .verify => 1

/-- A step after the search brings the candidate closer to its end and takes nothing from the stream buffer. -/
theorem decodeStep_goOn_held (hs : s.st ≠ .search) (h : decodeStep p s = .goOn t) :
    t.sb = s.sb ∧ stepsLeft t.st < stepsLeft s.st := by
  cases hst : s.st with
  | search => exact absurd hst hs
  | header =>
    rw [decodeStep, hst] at h
    obtain ⟨-, ⟨-, rfl⟩ | ⟨-, rfl⟩⟩ := stepHeader_goOn h <;> simp [stepsLeft]
  | payload =>
    rw [decodeStep, hst] at h
    obtain ⟨-, rfl⟩ := stepPayload_goOn h
    simp [stepsLeft]
  | verify =>
    rw [decodeStep, hst] at h
    obtain ⟨-, rfl⟩ := stepVerify_goOn h
    simp [stepsLeft]

/-- Induction on the steps after the search. -/
theorem runCandidate_induct {I Q : State → Prop} (hgo : ∀ s t, I s → decodeStep p s = .goOn t → I t)
    (hdone : ∀ s t, I s → decodeStep p s = .done t → Q t) (s : State) (hs : I s) :
    (∃ t, runCandidate p s = .done t ∧ Q t) ∨ ∃ t, runCandidate p s = .goOn t ∧ I t ∧ t.st = .search ∧ t.sb = s.sb := by
  induction hn : stepsLeft s.st using Nat.strong_induction_on generalizing s with
  | _ n ih =>
    by_cases hst : s.st = .search
    · exact .inr ⟨s, runCandidate_search hst, hs, hst, rfl⟩
    · rw [runCandidate_step hst]
      cases hr : decodeStep p s with
      | done t => exact .inl ⟨t, rfl, hdone s t hs hr⟩
      | goOn t =>
        obtain ⟨hsb, hlt⟩ := decodeStep_goOn_held hst hr
        rw [← hsb]
        exact ih _ (hn ▸ hlt) t (hgo s t hs hr) rfl

/-- Induction on the search of the bytes present. -/
theorem scan_induct {I Q : State → Prop} (hgo : ∀ s t, I s → decodeStep p s = .goOn t → I t)
    (hdone : ∀ s t, I s → decodeStep p s = .done t → Q t) (s : State) (hs : I s) (hst : s.st = .search) :
    Q (scan p s.sb s) := by
  induction hl : s.sb generalizing s with
  | nil =>
    rw [scan]
    exact hdone s _ hs (by rw [decodeStep, hst]; simp [stepSearch, hl])
  | cons b rest ih =>
    rw [scan]
    cases hr : stepSearch s with
    | done t =>
      obtain ⟨hnil, -⟩ := stepSearch_done hr
      simp [hl] at hnil
    | goOn u =>
      have hu : I u := hgo s u hs (by rw [decodeStep, hst]; exact hr)
      have hsb : u.sb = rest := by
        obtain ⟨r, h1, rfl⟩ | ⟨c, r, h1, -, rfl⟩ := stepSearch_goOn hr <;> simp [hl]
      obtain ⟨t, ht, hq⟩ | ⟨t, ht, hit, htst, htsb⟩ := runCandidate_induct hgo hdone u hu
      · simpa [StepResult.andThen, ht] using hq
      · simp only [StepResult.andThen, ht]
        have := ih t hit htst (by rw [htsb, hsb])
        exact this

/-- Induction on `DECODE` (R142): what holds at its start and is kept by every step that goes on holds whenever a step
returns; so what a returning step gives of it, `DECODE` gives. -/
theorem runDecode_induct {I Q : State → Prop} (hgo : ∀ s t, I s → decodeStep p s = .goOn t → I t)
    (hdone : ∀ s t, I s → decodeStep p s = .done t → Q t) (s : State) (hs : I s) : Q (runDecode p s) := by
  rw [runDecode]
  obtain ⟨t, ht, hq⟩ | ⟨t, ht, hit, htst, -⟩ := runCandidate_induct hgo hdone s hs
  · rw [ht]; exact hq
  · rw [ht]; exact scan_induct hgo hdone t hit htst

end Sys2Proof.Machine
end

