-- ==== Sys2Proof/Laws/PerInstr.lean ====
section
/-! SUPPORT. The family WireFormat: for every instruction, its encoding begins with the marker exactly where it is a
wire format, so the first byte tells the two formats of the table apart (R50, R65; no command code is 0xFD). -/

namespace Sys2Proof.Laws.WireFormat

open Sys2Proof

/-- The format read off the first byte of the instruction's encoding is the instruction's own. -/
def Statement : Instr → Prop := fun i => tableFormat (encode i) = i.format

theorem push (bs : List Byte) : Statement (.push bs) := rfl

theorem decode : Statement .decode := rfl

theorem reset : Statement .reset := rfl

theorem crcInit : Statement .crcInit := rfl

theorem crcAcc (b : Byte) : Statement (.crcAcc b) := rfl

theorem crcGet : Statement .crcGet := rfl

theorem crcCompute (bs : List Byte) (seed : Byte) : Statement (.crcCompute bs seed) := rfl

theorem getMagic (fr : RawFrame) : Statement (.getMagic fr) := rfl

theorem getPayloadLength (fr : RawFrame) : Statement (.getPayloadLength fr) := rfl

theorem getIncompatFlags (fr : RawFrame) : Statement (.getIncompatFlags fr) := rfl

theorem getCompatFlags (fr : RawFrame) : Statement (.getCompatFlags fr) := rfl

theorem getSequence (fr : RawFrame) : Statement (.getSequence fr) := rfl

theorem getSystemId (fr : RawFrame) : Statement (.getSystemId fr) := rfl

theorem getComponentId (fr : RawFrame) : Statement (.getComponentId fr) := rfl

theorem getMessageId (fr : RawFrame) : Statement (.getMessageId fr) := rfl

theorem getPayload (fr : RawFrame) : Statement (.getPayload fr) := rfl

theorem getChecksum (fr : RawFrame) : Statement (.getChecksum fr) := rfl

theorem getSignature (fr : RawFrame) : Statement (.getSignature fr) := rfl

theorem signatureLength (fr : RawFrame) : Statement (.signatureLength fr) := rfl

theorem rawBytes (fr : RawFrame) : Statement (.rawBytes fr) := rfl

theorem hasValidCrc (fr : RawFrame) : Statement (.hasValidCrc fr) := rfl

theorem setMagic (fr : RawFrame) (v : Byte) : Statement (.setMagic fr v) := rfl

theorem setPayloadLength (fr : RawFrame) (v : Byte) : Statement (.setPayloadLength fr v) := rfl

theorem setIncompatFlags (fr : RawFrame) (v : Byte) : Statement (.setIncompatFlags fr v) := rfl

theorem setCompatFlags (fr : RawFrame) (v : Byte) : Statement (.setCompatFlags fr v) := rfl

theorem setSequence (fr : RawFrame) (v : Byte) : Statement (.setSequence fr v) := rfl

theorem setSystemId (fr : RawFrame) (v : Byte) : Statement (.setSystemId fr v) := rfl

theorem setComponentId (fr : RawFrame) (v : Byte) : Statement (.setComponentId fr v) := rfl

theorem setMessageId (fr : RawFrame) (v : Word24) : Statement (.setMessageId fr v) := rfl

theorem setPayload (fr : RawFrame) (bs : List Byte) : Statement (.setPayload fr bs) := rfl

theorem setChecksum (fr : RawFrame) (v : Word16) : Statement (.setChecksum fr v) := rfl

theorem setSignature (fr : RawFrame) (bs : List Byte) : Statement (.setSignature fr bs) := rfl

theorem frameV2Unsigned (fields : FrameFields) : Statement (.frameV2Unsigned fields) := rfl

theorem frameV2Signed (fields : FrameFields) (sig : Signature) : Statement (.frameV2Signed fields sig) := rfl

end Sys2Proof.Laws.WireFormat
end

