-- ==== Sys2Proof/Laws/Safety.lean ====
section
/-! SUPPORT. The small lemmas of the definitions in Safety.lean and of the pseudo-operation DRAIN: a candidate's bytes,
and how the marker positions and valid occurrences of a stream follow from those of its tail (R175). -/

namespace Sys2Proof.Machine

open Sys2Proof

variable (p : Config.Params)

theorem candidateFrame_byte {k : Nat} {after : List Byte} {i : Nat} (hk : k ≤ after.length) (hi : i < 280) :
    (candidateFrame k after).byte i =
      if i = 0 then Config.marker else if i ≤ k then after.getD (i - 1) 0#8 else 0#8 := by
  rw [candidateFrame, RawFrame.write_byte _ _ _ hi]
  simp only [List.length_cons, List.length_take, Nat.min_eq_left hk]
  by_cases h0 : i = 0
  · subst h0
    simp
  · rw [if_neg h0]
    obtain ⟨j, rfl⟩ : ∃ j, i = j + 1 := ⟨i - 1, by omega⟩
    by_cases h1 : j + 1 ≤ k
    · rw [if_pos (by omega), if_pos h1]
      simp [List.getElem?_take_of_lt (show j < k by omega)]
    · rw [if_neg (by omega), if_neg h1, RawFrame.byte_zero]

theorem undecidedAt_cons (b : Byte) (w : List Byte) (i : Nat) : undecidedAt p (b :: w) (i + 1) = undecidedAt p w i := by
  simp [undecidedAt, markerAt]

theorem validAt_cons (b : Byte) (w : List Byte) (i : Nat) : validAt p (b :: w) (i + 1) = validAt p w i := by
  simp [validAt, markerAt]

theorem holdPosition_cons (b : Byte) (w : List Byte) :
    holdPosition p (b :: w) = if undecidedAt p (b :: w) 0 then 0 else holdPosition p w + 1 := by
  simp only [holdPosition]
  rw [List.length_cons, List.range_succ_eq_map, List.find?_cons]
  cases h : undecidedAt p (b :: w) 0 with
  | true => simp
  | false =>
    simp only [Bool.false_eq_true, if_false, List.find?_map]
    rw [show undecidedAt p (b :: w) ∘ Nat.succ = undecidedAt p w from funext fun i => undecidedAt_cons p b w i]
    cases List.find? (undecidedAt p w) (List.range w.length) <;> simp

theorem validFrames_cons (b : Byte) (w : List Byte) :
    validFrames p (b :: w) =
      if undecidedAt p (b :: w) 0 then []
      else (if validAt p (b :: w) 0 then [occurrenceFrame p w] else []) ++ validFrames p w := by
  simp only [validFrames, holdPosition_cons]
  split
  · rfl
  · rw [List.range_succ_eq_map, List.filter_cons, List.filter_map]
    rw [show validAt p (b :: w) ∘ Nat.succ = validAt p w from funext fun i => validAt_cons p b w i]
    split <;> simp [Function.comp_def]

theorem drainLoop_frame {p : Config.Params} {k : Nat} {s : State} {fr : RawFrame}
    (h : (runDecode p s).result = .frame fr) :
    drainLoop p (k + 1) s =
      (fr :: (drainLoop p k ((runDecode p s).reinit.answer .none)).1,
        (drainLoop p k ((runDecode p s).reinit.answer .none)).2) := by
  simp only [drainLoop, h]

theorem drainLoop_needMore {p : Config.Params} {k : Nat} {s : State} (h : (runDecode p s).result = .needMore) :
    drainLoop p (k + 1) s = ([], runDecode p s) := by
  simp only [drainLoop, h]

end Sys2Proof.Machine
end

