-- ==== Sys2Proof/Laws/Step.lean ====
section
/-! SUPPORT. When the instructions that can be refused answer a next state, and which (R128, R130, R141); and what a step
can do: run the instruction at the port, take a byte of the link, or nothing. -/

namespace Sys2Proof.Machine

open Sys2Proof

variable {s t : State}

theorem execPush_next {bs : List Byte} :
    execPush bs s = .next t ↔ fits Config.params (s.sb.length + bs.length) = true ∧ t = (s.append bs).answer .none := by
  by_cases h : fits Config.params (s.sb.length + bs.length) = true <;>
    simp [execPush, State.appendIfFits, h, eq_comm]

theorem receiveBytes_next {p : Config.Params} {bs : List Byte} :
    receiveBytes p bs s = .next t ↔ fits p (s.sb.length + bs.length) = true ∧ t = runDecode p (s.append bs) := by
  by_cases h : fits p (s.sb.length + bs.length) = true <;>
    simp [receiveBytes, State.appendIfFits, h, eq_comm]

theorem execSetPayload_next {fr : RawFrame} {bs : List Byte} :
    execSetPayload fr bs s = .next t ↔ bs.length = fr.payloadLength ∧ t = s.answer (.rawFrame (fr.write 10 bs)) := by
  by_cases h : bs.length = fr.payloadLength <;> simp [execSetPayload, RawFrame.setPayload, h, eq_comm]

theorem execSetSignature_next {fr : RawFrame} {bs : List Byte} :
    execSetSignature fr bs s = .next t ↔
      bs.length = 13 ∧ isSigned Config.params (fr.byte 2) = true ∧ t = s.answer (.rawFrame (fr.setSignature bs)) := by
  by_cases h : bs.length = 13 <;> by_cases h' : isSigned Config.params (fr.byte 2) = true <;>
    simp [execSetSignature, h, h', eq_comm]

/-- Everything a step that answers a next state has done. -/
theorem step_next (h : step s = .next t) :
    t = s ∨
      (∃ i rest, decodePort Config.params s.port.format s.port.bytes = .ok i rest ∧
        exec i { s with port := { s.port with bytes := rest } } = .next t) ∨
      ∃ b rest, decodePort Config.params s.port.format s.port.bytes = .error (.noWholeFrame b rest) ∧
        execLinkByte b { s with port := { s.port with bytes := rest } } = .next t := by
  simp only [step, fetch] at h
  split at h
  · rename_i i u hu
    split at hu <;> cases hu
    exact .inr (.inl ⟨i, _, ‹_›, h⟩)
  · rename_i b u hu
    split at hu <;> cases hu
    exact .inr (.inr ⟨b, _, ‹_›, h⟩)
  · cases h
    exact .inl rfl
  · cases h

end Sys2Proof.Machine
end

