-- ==== Sys2Proof/Tests/Slice0.lean ====
section
/-! SUPPORT. Tests. Expected results are those of spec/95_test_vectors.md (named there V<n>, P<n>, or by section), or the
encodings of R50, R65 and R66 written out by hand. The witnesses at the end show that the hypotheses of the statements
can be met. -/

namespace Sys2Proof.Tests

open Sys2Proof Sys2Proof.Machine

-- One theorem after another: each thread of the parallel elaboration reserves a stack, and all together run out of memory.
set_option Elab.async false

/-! ## The test configuration and the named frames (95_test_vectors.md section 2) -/

/-- `SEED_T`, `IFLAG_SIGNED = SUPPORTED_IFLAGS = 0x01`, `SB_CAP` unbounded. -/
def params : Config.Params :=
  .withDefaultFlags (fun id => if id = 0#24 then 50#8 else if id = 76#24 then 152#8 else 0#8) none

/-- R5's table: the defaults of both flag masks are 0x01, whatever the seed table and the capacity are. -/
theorem test_default_flags (seed : Word24 → Byte) (extraCapacity : Option Nat) :
    (Config.Params.withDefaultFlags seed extraCapacity).iflagSigned = 0x01#8 ∧
      (Config.Params.withDefaultFlags seed extraCapacity).supportedIflags = 0x01#8 :=
  ⟨rfl, by simp [Config.Params.supportedIflags, Config.Params.iflagSigned, Config.Params.withDefaultFlags]⟩

/-- The same with the smallest capacity, 279 bytes. -/
def smallParams : Config.Params := { params with extraCapacity := some 0 }

/-- Bytes written as numbers. -/
def bytes (ns : List Nat) : List Byte := ns.map (BitVec.ofNat 8)

/-- The RawFrame value that holds these bytes and zero beyond. -/
def frame (bs : List Byte) : RawFrame := RawFrame.zero.write 0 bs

/-- The payload of `HB` and `SG`. -/
def payloadHB : List Byte := bytes [0, 0, 0, 0, 2, 3, 0x51, 4, 3]

/-- `HB`, 21 bytes. -/
def frameHB : List Byte := bytes [0xFD, 9, 0, 0, 7, 1, 1, 0, 0, 0] ++ payloadHB ++ bytes [0xA4, 0xAC]

/-- `SG`, 34 bytes. -/
def frameSG : List Byte :=
  bytes [0xFD, 9, 1, 0, 8, 1, 1, 0, 0, 0] ++ payloadHB ++ bytes [0xC4, 0xB6] ++
    bytes [9, 1, 2, 3, 4, 5, 6, 0xA1, 0xA2, 0xA3, 0xA4, 0xA5, 0xA6]

/-- `CL`, 42 bytes. -/
def frameCL : List Byte :=
  bytes [0xFD, 30, 0, 0, 0, 0, 50, 76, 0, 0] ++ bytes [0, 0, 0xE6, 0x42, 0, 0x40, 0x9C, 0x45] ++
    List.replicate 20 0x00#8 ++ bytes [0xFF, 1] ++ bytes [0xBC, 0xC3]

/-- `E0`, the shortest frame. -/
def frameE0 : List Byte := 0xFD#8 :: (List.replicate 9 0x00#8 ++ bytes [0x16, 0x8E])

/-- `MAX`, the longest frame, without its last byte. -/
def frameMaxShort : List Byte :=
  bytes [0xFD, 0xFF, 1] ++ List.replicate 7 0xFF#8 ++ List.replicate 255 0xAA#8 ++ bytes [0xD5, 0x69] ++
    List.replicate 12 0x00#8

/-- `HBbad`: `HB` with one payload bit flipped. -/
def frameHBbad : List Byte :=
  bytes [0xFD, 9, 0, 0, 7, 1, 1, 0, 0, 0] ++ bytes [0, 0, 0x10, 0, 2, 3, 0x51, 4, 3] ++ bytes [0xA4, 0xAC]

/-- `U2`: a correct checksum and a flag bit outside `SUPPORTED_IFLAGS`. -/
def frameU2 : List Byte := bytes [0xFD, 9, 2, 0, 9, 1, 1, 0, 0, 0] ++ payloadHB ++ bytes [0xEC, 0x39]

/-- `A`: its payload begins like a header. -/
def frameA : List Byte := bytes [0xFD, 10, 0, 0, 1, 1, 1, 0, 0, 0] ++ bytes [0xFD, 0xC8, 0, 0, 0, 0, 0, 0, 0, 0, 0xBB, 0x44]

/-- `O`: its payload is the whole of `HB`. -/
def frameO : List Byte := bytes [0xFD, 21, 0, 0, 2, 1, 1, 0, 0, 0] ++ frameHB ++ bytes [0x52, 0xBD]

/-- A fresh block with these bytes in the stream buffer. -/
def holding (bs : List Byte) : State := State.reset.append bs

/-- What the tables of sections 5 and 6 give of a state: `ST`, `|SB|`, `CONS` and the ghost log. -/
def summary (s : State) : DecoderState × Nat × Nat × List (RejectCause × Nat) :=
  (s.st, s.sb.length, s.ghost.cons, s.ghost.rejections)

/-- The state in which `DECODE` leaves a fresh block that holds these bytes. -/
def decoded (bs : List Byte) : State := runDecode params (holding bs)

/-- The next state, where an operation completes. -/
def nextOf : Host.Outcome State Fault Refusal → Option State
  | .next s => some s
  | .fault _ => none
  | .refused _ => none

/-- The result of an operation that completes. -/
def resultOf (o : Host.Outcome State Fault Refusal) : Option Result := (nextOf o).map State.result

/-- The refusal, where an operation is refused. -/
def refusalOf : Host.Outcome State Fault Refusal → Option Refusal
  | .next _ => none
  | .fault _ => none
  | .refused r => some r

/-! ## Well-formedness: every check refuses an ill-formed term -/

theorem test_wellFormed_push_count : (Instr.push (List.replicate 65536 0#8)).wellFormed params = false := by
  rw [Instr.wellFormed, sequenceFits, List.length_replicate]
  rfl

theorem test_wellFormed_crcCompute_count : (Instr.crcCompute (List.replicate 65536 0#8) 0#8).wellFormed params = false := by
  rw [Instr.wellFormed, sequenceFits, List.length_replicate]
  rfl

theorem test_wellFormed_setPayload_count (fr : RawFrame) :
    (Instr.setPayload fr (List.replicate 65536 0#8)).wellFormed params = false := by
  rw [Instr.wellFormed, sequenceFits, List.length_replicate]
  rfl

theorem test_wellFormed_setSignature_count (fr : RawFrame) :
    (Instr.setSignature fr (List.replicate 65536 0#8)).wellFormed params = false := by
  rw [Instr.wellFormed, sequenceFits, List.length_replicate]
  rfl

/-- The fields of `HB`. -/
def fieldsHB : FrameFields where
  incompatFlags := 0x00#8
  compatFlags := 0x00#8
  sequence := 7#8
  systemId := 1#8
  componentId := 1#8
  messageId := 0#24
  payload := payloadHB
  checksum := 0xACA4#16

/-- The fields of `SG`. -/
def fieldsSG : FrameFields := { fieldsHB with incompatFlags := 0x01#8, sequence := 8#8, checksum := 0xB6C4#16 }

/-- The signature of `SG`. -/
def signatureSG : Signature where
  linkId := 9#8
  timestamp := 0x060504030201#48
  mac := bytes [0xA1, 0xA2, 0xA3, 0xA4, 0xA5, 0xA6]

theorem test_wellFormed_accepts :
    (Instr.frameV2Unsigned fieldsHB).wellFormed params = true ∧
      (Instr.frameV2Signed fieldsSG signatureSG).wellFormed params = true := by decide

theorem test_wellFormed_frame_payload :
    (Instr.frameV2Unsigned { fieldsHB with payload := List.replicate 256 0#8 }).wellFormed params = false ∧
      (Instr.frameV2Unsigned { fieldsHB with payload := List.replicate 255 0#8 }).wellFormed params = true := by
  decide +kernel

/-- An unsupported bit of the flags byte is no ground: the frame has an encoding, and the decoder rejects it (R50, R53). -/
theorem test_wellFormed_frame_flags :
    (Instr.frameV2Unsigned { fieldsHB with incompatFlags := 0x02#8 }).wellFormed params = true ∧
      (Instr.frameV2Signed { fieldsSG with incompatFlags := 0x03#8 } signatureSG).wellFormed params = true := by decide

theorem test_wellFormed_frame_signed_bit :
    (Instr.frameV2Unsigned { fieldsHB with incompatFlags := 0x01#8 }).wellFormed params = false ∧
      (Instr.frameV2Signed { fieldsSG with incompatFlags := 0x00#8 } signatureSG).wellFormed params = false := by decide

theorem test_wellFormed_frame_mac :
    (Instr.frameV2Signed fieldsSG { signatureSG with mac := bytes [1, 2, 3, 4, 5] }).wellFormed params = false := by decide

/-! ## Decoding: words written out from R50, R65, R66 -/

/-- The command codes of R65 whose operands are one RawFrame, on the bytes of `HB` and a byte after them. -/
theorem test_decode_accessors :
    (List.map (fun code => decodePort params .cmd8 (code :: ((frame frameHB).bytes ++ [0x55#8])))
        [0x20#8, 0x21#8, 0x22#8, 0x23#8, 0x24#8, 0x25#8, 0x26#8, 0x27#8, 0x28#8, 0x29#8, 0x2A#8, 0x2B#8, 0x2C#8, 0x2D#8]) =
      List.map (fun mk : RawFrame → Instr => .ok (mk (frame frameHB)) [0x55#8])
        [.getMagic, .getPayloadLength, .getIncompatFlags, .getCompatFlags, .getSequence, .getSystemId, .getComponentId,
          .getMessageId, .getPayload, .getChecksum, .getSignature, .signatureLength, .rawBytes, .hasValidCrc] := by
  decide +kernel

theorem test_decode_byte_mutators :
    (List.map (fun code => decodePort params .cmd8 (code :: ((frame frameHB).bytes ++ [0xA5#8])))
        [0x30#8, 0x31#8, 0x32#8, 0x33#8, 0x34#8, 0x35#8, 0x36#8]) =
      List.map (fun mk : RawFrame → Byte → Instr => .ok (mk (frame frameHB) 0xA5#8) [])
        [.setMagic, .setPayloadLength, .setIncompatFlags, .setCompatFlags, .setSequence, .setSystemId, .setComponentId] := by
  decide +kernel

/-- A 24-bit and a 16-bit value, low byte first (R66). -/
theorem test_decode_value_mutators :
    decodePort params .cmd8 (0x37#8 :: ((frame frameHB).bytes ++ bytes [0x03, 0x02, 0x01])) =
        .ok (.setMessageId (frame frameHB) 0x010203#24) [] ∧
      decodePort params .cmd8 (0x39#8 :: ((frame frameHB).bytes ++ bytes [0xBC, 0xC3])) =
        .ok (.setChecksum (frame frameHB) 0xC3BC#16) [] := by decide +kernel

/-- A byte sequence with its count, low byte first (R66). -/
theorem test_decode_sequence_mutators :
    decodePort params .cmd8 (0x38#8 :: ((frame frameHB).bytes ++ bytes [2, 0, 0xAA, 0xBB])) =
        .ok (.setPayload (frame frameHB) (bytes [0xAA, 0xBB])) [] ∧
      decodePort params .cmd8 (0x3A#8 :: ((frame frameHB).bytes ++ bytes [1, 0, 0xAA, 0xBB])) =
        .ok (.setSignature (frame frameHB) (bytes [0xAA])) [0xBB#8] := by decide +kernel

/-- P10, and a count whose high byte is not zero. -/
theorem test_decode_counts :
    decodePort params .cmd8 (bytes [0x13, 2, 0, 0x31, 0x32, 0x39]) = .ok (.crcCompute (bytes [0x31, 0x32]) 0x39#8) [] ∧
      decodePort params .cmd8 (bytes [0x01, 0, 1] ++ List.replicate 256 7#8) = .ok (.push (List.replicate 256 7#8)) [] ∧
      decodePort params .cmd8 (bytes [0x01, 0, 1] ++ List.replicate 255 7#8) = .error .truncated := by decide +kernel

/-- `HB` and `SG` on the wire are the two rows of the format FRAME. -/
theorem test_decode_frames :
    decodePort params .frame (frameHB ++ [0x99#8]) = .ok (.frameV2Unsigned fieldsHB) [0x99#8] ∧
      decodePort params .frame frameSG = .ok (.frameV2Signed fieldsSG signatureSG) [] := by decide

/-- `U2`, whose flags byte has an unsupported bit, is a frame on the wire like any other: the flags byte is a field. -/
theorem test_decode_unsupported_flags :
    (match decodePort params .frame frameU2 with
      | .ok (.frameV2Unsigned h) rest => decide (h.incompatFlags = 0x02#8 ∧ rest = [])
      | _ => false) = true := by decide

/-- A frame cut short is not one yet, and bytes without marker are none. -/
theorem test_decode_not_a_frame :
    decodePort params .frame (frameSG.take 33) = .error (.noWholeFrame 0xFD#8 ((frameSG.take 33).drop 1)) ∧
      decodePort params .frame (0xFE#8 :: frameHB) = .error (.noWholeFrame 0xFE#8 frameHB) := by decide

theorem test_decode_no_command :
    decodePort params .cmd8 [] = .error .empty ∧ decodePort params .cmd8 [0x11#8] = .error .truncated ∧
      decodePort params .cmd8 [0x00#8] = .error (.unknownCommand 0x00#8) ∧
      decodePort params .cmd8 frameHB = .error (.unknownCommand 0xFD#8) := by decide

/-- The table's words: the bits of `PUSH`'s row alone stand for an empty sequence. -/
theorem test_tableWord :
    decodeTableWord 8 0x01 = some (.push []) ∧ decodeTableWord 16 0x5511 = some (.crcAcc 0x55#8) ∧
      decodeTableWord 8 0x2B = some (.signatureLength RawFrame.zero) := by decide +kernel

/-! ## The checksum (95_test_vectors.md section 3) -/

theorem test_crcStep :
    crcStep 0xFFFF#16 0x00#8 = 0x0F87#16 ∧ crcStep 0xFFFF#16 0xFF#8 = 0x00FF#16 ∧ crcStep 0x0000#16 0x01#8 = 0x1189#16 ∧
      crcStep 0x0000#16 0x80#8 = 0x8408#16 ∧ crcStep 0x1234#16 0x56#8 = 0x4006#16 := by decide

theorem test_crc16 :
    crc16Raw (bytes [0x31, 0x32, 0x33, 0x34, 0x35, 0x36, 0x37, 0x38, 0x39]) = 0x6F91#16 ∧
      crc16 [] 0x32#8 = 0x1D16#16 ∧ crc16 (bytes [0xFF, 0xFF]) 0x00#8 = 0x0000#16 ∧
      crc16 (List.replicate 9 0x00#8) 0x32#8 = 0x8E16#16 := by decide

theorem test_crc_operations :
    nextOf (exec .crcInit { State.reset with acc := 0x1234#16 }) = some State.reset ∧
      nextOf (exec (.crcAcc 0x56#8) { State.reset with acc := 0x1234#16 }) = some { State.reset with acc := 0x4006#16 } ∧
      resultOf (exec .crcGet { State.reset with acc := 0xACA4#16 }) = some (.word16 0xACA4#16) ∧
      nextOf (exec (.crcCompute (bytes [0xFD]) 0x00#8) State.reset) =
        some { State.reset with result := .word16 0x3CC8#16 } := by
  decide +kernel

/-! ## RawFrame values (95_test_vectors.md section 4) -/

theorem test_header_accessors :
    List.map (fun i : RawFrame → Instr => resultOf (exec (i (frame frameSG)) State.reset))
        [.getMagic, .getPayloadLength, .getIncompatFlags, .getCompatFlags, .getSequence, .getSystemId, .getComponentId] =
      List.map (fun b => some (Result.byte b)) (bytes [0xFD, 9, 1, 0, 8, 1, 1]) := by decide +kernel

/-- `CL` carries id 76, component 50 and the stored checksum 0xC3BC (section 1.1). -/
theorem test_wide_accessors :
    resultOf (exec (.getMessageId (frame frameCL)) State.reset) = some (.word24 76#24) ∧
      resultOf (exec (.getComponentId (frame frameCL)) State.reset) = some (.byte 50#8) ∧
      resultOf (exec (.getChecksum (frame frameCL)) State.reset) = some (.word16 0xC3BC#16) ∧
      resultOf (exec (.getPayload (frame frameHB)) State.reset) = some (.bytes payloadHB) := by decide +kernel

theorem test_signature :
    (frame frameSG).signatureLength params = 13 ∧ (frame frameSG).signature params = putSignature signatureSG ∧
      (frame frameSG).signatureParts params = some signatureSG ∧ (frame frameHB).signature params = [] := by
  decide +kernel

theorem test_raw_bytes :
    (frame frameHB).rawBytes params = frameHB ∧ (frame frameSG).rawBytes params = frameSG ∧
      (frame frameE0).rawBytes params = frameE0 := by decide +kernel

/-- Section 4.2: `U2` passes, since the flags are not looked at; `HB` with another seed does not. -/
theorem test_hasValidCrc :
    (frame frameHB).hasValidCrc params = true ∧ (frame frameSG).hasValidCrc params = true ∧
      (frame frameCL).hasValidCrc params = true ∧ (frame frameHBbad).hasValidCrc params = false ∧
      (frame frameU2).hasValidCrc params = true ∧
      (frame frameHB).hasValidCrc { params with seed := fun _ => 0x00#8 } = false := by decide +kernel

/-- A single payload byte: index 8 of `HB`, and index 9 refused (section 4.3). -/
theorem test_payload_byte :
    (frame frameHB).payloadByte 8 = some 3#8 ∧ (frame frameHB).payloadByte 9 = none := by decide +kernel

/-- The bytes of a mutator's result. -/
def mutated (i : Instr) (off n : Nat) : Option (List Byte) :=
  match resultOf (exec i State.reset) with
  | some (.rawFrame fr) => some (fr.slice off (off + n))
  | _ => none

theorem test_header_mutators :
    mutated (.setMagic (frame frameHB) 0x11#8) 0 3 = some (bytes [0x11, 9, 0]) ∧
      mutated (.setPayloadLength (frame frameHB) 0x11#8) 0 3 = some (bytes [0xFD, 0x11, 0]) ∧
      mutated (.setIncompatFlags (frame frameHB) 0x11#8) 1 3 = some (bytes [9, 0x11, 0]) ∧
      mutated (.setCompatFlags (frame frameHB) 0x11#8) 2 3 = some (bytes [0, 0x11, 7]) ∧
      mutated (.setSequence (frame frameHB) 0x11#8) 3 3 = some (bytes [0, 0x11, 1]) ∧
      mutated (.setSystemId (frame frameHB) 0x11#8) 4 3 = some (bytes [7, 0x11, 1]) ∧
      mutated (.setComponentId (frame frameHB) 0x11#8) 5 3 = some (bytes [1, 0x11, 0]) := by decide +kernel

theorem test_set_message_id :
    mutated (.setMessageId RawFrame.zero 0x010203#24) 6 5 = some (bytes [0, 3, 2, 1, 0]) ∧
      mutated (.setMessageId RawFrame.zero 0x00004C#24) 7 3 = some (bytes [0x4C, 0, 0]) := by decide +kernel

theorem test_set_payload :
    mutated (.setPayload (frame (bytes [0xFD, 2])) (bytes [0xAA, 0xBB])) 9 4 = some (bytes [0, 0xAA, 0xBB, 0]) ∧
      refusalOf (exec (.setPayload (frame frameHB) (bytes [0xAA, 0xBB])) State.reset) = some .payloadLengthMismatch := by
  decide +kernel

theorem test_set_checksum :
    mutated (.setChecksum (frame (bytes [0xFD, 0x1E])) 0xC3BC#16) 39 4 = some (bytes [0, 0xBC, 0xC3, 0]) := by decide +kernel

/-- `SG` with 13 other signature bytes still passes the check (section 4.3). -/
theorem test_set_signature :
    ((frame frameSG).setSignature (List.replicate 13 0x00#8)).hasValidCrc params = true ∧
      ((frame frameSG).setSignature (List.replicate 13 0x77#8)).slice 20 35 =
        0xB6#8 :: (List.replicate 13 0x77#8 ++ [0x00#8]) ∧
      refusalOf (exec (.setSignature (frame frameSG) (bytes [1, 2, 3])) State.reset) = some .signatureLengthMismatch := by
  decide +kernel

/-! ## The decoder (95_test_vectors.md sections 5 to 7) -/

theorem test_push :
    State.reset.appendIfFits smallParams (List.replicate 279 0x00#8) ≠ none ∧
      State.reset.appendIfFits smallParams (List.replicate 280 0x00#8) = none := by decide +kernel

/-- V1, V3, V4, V9, V10, V22, P4's first frame: where `DECODE` stops and what it leaves. -/
theorem test_decode_stops :
    List.map (fun bs => summary (decoded bs))
        [[], [0xFD#8], frameHB.take 9, frameHB.take 20, frameHB, frameU2, frameHBbad] =
      [(.search, 0, 0, []), (.header, 0, 1, []), (.header, 8, 1, []), (.payload, 19, 1, []), (.verify, 20, 1, []),
        (.search, 0, 21, [(.iflags, 1)]), (.search, 0, 21, [(.crc, 1)])] := by decide +kernel

/-- V62, V63, V69: the decoder finds `HB` behind a stray marker, behind a corrupted frame and behind noise. -/
theorem test_decode_resynchronises :
    List.map (fun bs => summary (decoded bs))
        [0xFD#8 :: frameHB, frameHBbad ++ frameHB, bytes [0x00, 0xFE, 0xFD, 0x11] ++ frameHB] =
      [(.verify, 20, 2, [(.iflags, 1)]), (.verify, 20, 22, [(.crc, 1)]), (.verify, 20, 5, [(.iflags, 3)])] := by
  decide +kernel

/-- V10, P4: the frame returned, which is the one that stays in `F`. -/
theorem test_decode_returns :
    (decoded frameHB).result = .frame (frame frameHB) ∧ (decoded (frameHBbad ++ frameHB)).result = .frame (frame frameHB) ∧
      (decoded (frameHBbad ++ frameHB)).f = frame frameHB := by decide +kernel

/-- V13, V14: the longest frame waits for its 279th byte after the marker. -/
theorem test_decode_longest_frame :
    summary (decoded frameMaxShort) = (.payload, 278, 1, []) ∧
      summary (decoded (frameMaxShort ++ [0x00#8])) = (.verify, 279, 1, []) := by decide +kernel

/-- V26: `RESET` after a frame leaves the stream buffer. -/
theorem test_reset :
    (nextOf (exec .reset (decoded frameHB))).map summary = some (.search, 20, 1, []) ∧
      (nextOf (exec .reset (decoded frameHB))).map State.f = some RawFrame.zero := by
  decide +kernel

/-- P5: behind a false start that wants 211 bytes the second frame waits; P6: a frame inside a frame is returned too. -/
theorem test_drain :
    (drain params (holding (frameA ++ frameHB))).1 = [frame frameA] ∧
      summary (drain params (holding (frameA ++ frameHB))).2 = (.payload, 32, 11, []) ∧
      (drain params (holding frameO)).1 = [frame frameO, frame frameHB] ∧
      summary (drain params (holding frameO)).2 = (.search, 0, 33, []) := by decide +kernel

/-- The specification side of R175 on the same stream. -/
theorem test_valid_frames :
    validFrames params (frameA ++ frameHB) = [frame frameA] ∧ holdPosition params (frameA ++ frameHB) = 10 ∧
      validFrames params frameO = [frame frameO, frame frameHB] := by decide +kernel

/-- A whole frame that arrives is returned, under the model's reading of the format FRAME (log 4). -/
theorem test_frame_arrives :
    resultOf (receiveBytes params frameHB State.reset) = some (.frame (frame frameHB)) ∧
      (nextOf (receiveBytes params frameHB State.reset)).map summary = some (.verify, 20, 1, []) ∧
      refusalOf (receiveBytes smallParams frameHB (holding (List.replicate 259 0x00#8))) = some .pushNotEnabled := by
  decide +kernel

/-- R63 for bytes that arrive on the link: noise is skipped, unsupported flags and a wrong checksum are rejected, none with
an error; the bytes after a rejected marker are scanned. -/
theorem test_link_noise_and_rejections :
    List.flatMap (fun bs => (nextOf (receiveBytes params bs State.reset)).toList.map summary)
        [[0xFE#8], frameU2, frameHBbad] =
      [(.search, 0, 1, []), (.search, 0, 21, [(.iflags, 1)]), (.search, 0, 21, [(.crc, 1)])] := by
  decide +kernel

/-- `RECV` waits for the rest of a frame and resets after it. -/
theorem test_recv :
    recv params [frameHB.take 5, frameHB.drop 5, frameE0] State.reset =
      .frame (frame frameHB) [frameE0] ((decoded frameHB).reinit.answer .none) ∧
      recv params [frameHB.take 5] State.reset = .waiting (decoded (frameHB.take 5)) := by decide +kernel

/-! ## Witnesses: the hypotheses of each statement of Certificates/Slice0/Obligations.lean can be met -/

/-- DecodeReadsEncodedInstruction, at the longest sequence. -/
theorem test_witness_DecodeReadsEncodedInstruction :
    (Instr.push (List.replicate 65535 0#8)).wellFormed params = true ∧
      (Instr.frameV2Signed fieldsSG signatureSG).wellFormed params = true := by
  refine ⟨?_, by decide⟩
  rw [Instr.wellFormed, sequenceFits, List.length_replicate]
  rfl

theorem test_witness_DecodedBytesAreTheEncoding :
    decodePort params .cmd8 [0x11#8, 0x55#8, 0x99#8] = .ok (.crcAcc 0x55#8) [0x99#8] ∧
      decodePort params .frame frameHB = .ok (.frameV2Unsigned fieldsHB) [] := by decide

/-- UnlistedCommandCodeIsRefused, at both sides of every range. -/
theorem test_witness_UnlistedCommandCodeIsRefused :
    ∀ code ∈ [0x00#8, 0x04#8, 0x0F#8, 0x14#8, 0x1F#8, 0x2E#8, 0x2F#8, 0x3B#8, 0xFF#8],
      ¬(0x01#8 ≤ code ∧ code ≤ 0x03#8) ∧ ¬(0x10#8 ≤ code ∧ code ≤ 0x13#8) ∧ ¬(0x20#8 ≤ code ∧ code ≤ 0x2D#8) ∧
        ¬(0x30#8 ≤ code ∧ code ≤ 0x3A#8) := by decide

/-- A fresh block with these bytes at its command port. -/
def presented (bs : List Byte) : State := { State.reset with port := { format := .cmd8, bytes := bs } }

theorem test_witness_StepRunsTheDecodedInstruction :
    (Instr.crcAcc 0x55#8).wellFormed Config.params = true ∧
      decodePort Config.params (presented [0x11#8, 0x55#8]).port.format (presented [0x11#8, 0x55#8]).port.bytes =
        .ok (.crcAcc 0x55#8) [] := ⟨rfl, rfl⟩

theorem test_witness_StepWithoutOperationDoesNothing :
    State.reset.port.bytes = [] ∧
      decodePort Config.params (presented [0x11#8]).port.format (presented [0x11#8]).port.bytes = .error .truncated :=
  ⟨rfl, rfl⟩

theorem test_witness_OneAlteredByteChangesTheChecksum : (0x00#8 : Byte) ≠ 0x01#8 := by decide

/-- AlteredPayloadByteFailsTheCheck, at the first and the last payload byte. -/
theorem test_witness_AlteredPayloadByteFailsTheCheck :
    (frame frameHB).hasValidCrc params = true ∧
      (0 < ((frame frameHB).byte 1).toNat ∧ 0x01#8 ≠ (frame frameHB).byte (10 + 0)) ∧
      (8 < ((frame frameHB).byte 1).toNat ∧ 0x00#8 ≠ (frame frameHB).byte (10 + 8)) := by decide +kernel

/-- CrcComputeIsThePureFunction, PushAppendsWhatFits, SetPayloadNeedsItsLength, SetSignatureNeedsASignedFrame: a count. -/
theorem test_witness_sequence_count : (List.replicate 65535 0#8).length < 65536 := by
  rw [List.length_replicate]
  decide

theorem test_witness_OnlyTheGeneratorWritesAcc :
    exec .crcInit State.reset = .next State.reset ∧
      exec (.crcAcc 0x55#8) State.reset = .next { State.reset with acc := crcStep 0xFFFF#16 0x55#8 } ∧
      exec .reset State.reset = .next State.reset := ⟨rfl, rfl, rfl⟩

theorem test_witness_OnlyTheGeneratorReadsAcc :
    (∀ b, Instr.decode ≠ .crcAcc b) ∧ Instr.decode ≠ .crcGet ∧ Instr.decode ≠ .crcInit :=
  ⟨fun _ => by simp, by simp, by simp⟩

/-- GetPayloadAnswersExactlyItsLength, at both sides of the length. -/
theorem test_witness_GetPayloadAnswersExactlyItsLength :
    8 < ((frame frameHB).byte 1).toNat ∧ ((frame frameHB).byte 1).toNat ≤ 9 := by decide +kernel

/-- SignatureFollowsTheSignedBit and SetSignatureNeedsASignedFrame, whatever the position of the signed bit is. -/
theorem test_witness_signed_bit :
    (frame (bytes [0xFD, 0, 0xFF])).byte 2 &&& Config.params.iflagSigned ≠ 0#8 ∧
      (frame (bytes [0xFD, 0, 0x00])).byte 2 &&& Config.params.iflagSigned = 0#8 ∧
      (List.replicate 13 0#8).length = 13 ∧ (List.replicate 12 0#8).length ≠ 13 := by
  have h : ∀ k : Fin 8, 0xFF#8 &&& (1#8 <<< k.val) ≠ 0#8 ∧ 0x00#8 &&& (1#8 <<< k.val) = 0#8 := by decide
  exact ⟨(h Config.signedBit).1, (h Config.signedBit).2, rfl, by decide⟩

theorem test_witness_HasValidCrcRecomputesTheChecksum :
    ((frameHB.drop 1).take 18).length = 9 + ((frame frameHB).byte 1).toNat ∧
      (∀ i < 18, ((frameHB.drop 1).take 18)[i]? = some ((frame frameHB).byte (1 + i))) ∧
      (0#24 : Word24).toNat =
        ((frame frameHB).byte 7).toNat + 256 * ((frame frameHB).byte 8).toNat + 65536 * ((frame frameHB).byte 9).toNat ∧
      ∀ i < 12 + ((frame frameHB).byte 1).toNat, 1 ≤ i →
        (frame frameHB).byte i = (((frame frameHB).write 0 [0x00#8]).write 21 [0x77#8]).byte i := by decide +kernel

/-- SetPayloadNeedsItsLength: the right length, at 0 too, and a wrong one. -/
theorem test_witness_SetPayloadNeedsItsLength :
    payloadHB.length = ((frame frameHB).byte 1).toNat ∧ ([] : List Byte).length = ((frame frameE0).byte 1).toNat ∧
      ([] : List Byte).length ≠ ((frame frameHB).byte 1).toNat := by decide +kernel

theorem test_witness_AccessorsReadWhatMutatorsWrote :
    (frame frameHB).setPayload payloadHB = some (frame frameHB) ∧ isSigned params ((frame frameSG).byte 2) = true ∧
      (List.replicate 13 0x00#8).length = 13 := by decide +kernel

/-- PushAppendsWhatFits, at the 279 bytes that every block holds. -/
theorem test_witness_PushAppendsWhatFits :
    ∀ cap, Config.params.capacity = some cap → State.reset.sb.length + (List.replicate 279 0#8).length ≤ cap :=
  (fits_iff Config.params _).mp (fits_of_le _ (by rw [List.length_replicate]; exact Nat.le_refl 279))

theorem test_witness_TwoPushesAreOne :
    fits Config.params (State.reset.sb.length + ([0x01#8] ++ [0x02#8]).length) = true := fits_of_le _ (by decide)

/-- SearchStepConsumesOneByte, each clause. -/
theorem test_witness_SearchStepConsumesOneByte :
    State.reset.st = .search ∧ State.reset.sb = [] ∧ (holding [0xFD#8]).st = .search ∧ (holding [0xFD#8]).sb = 0xFD#8 :: [] ∧
      (holding [0xFC#8]).st = .search ∧ (holding [0xFC#8]).sb = 0xFC#8 :: [] ∧ 0xFC#8 ≠ 0xFD#8 := by decide +kernel

/-- HeaderStepTestsTheFlags, each clause at its boundary. -/
theorem test_witness_HeaderStepTestsTheFlags :
    let s n flags := (holding (bytes [0, flags] ++ List.replicate n 0x00#8)).goto .header
    ((s 6 0).st = .header ∧ (s 6 0).sb.length < 9) ∧
      ((s 7 2).st = .header ∧ 9 ≤ (s 7 2).sb.length ∧ (s 7 2).sb.getD 1 0 &&& ~~~params.supportedIflags ≠ 0#8) ∧
      ((s 7 1).st = .header ∧ 9 ≤ (s 7 1).sb.length ∧ (s 7 1).sb.getD 1 0 &&& ~~~params.supportedIflags = 0#8) := by
  decide +kernel

/-- PayloadStepCopiesTheTrailingBytes, each clause at its boundary: an empty payload, unsigned and signed. -/
theorem test_witness_PayloadStepCopiesTheTrailingBytes :
    let s n flags := ((holding (List.replicate n 0x00#8)).goto .payload).store 2 (bytes [flags])
    let need n flags :=
      9 + (((s n flags).f.byte 1).toNat + 2 + (if (s n flags).f.byte 2 &&& params.iflagSigned ≠ 0#8 then 13 else 0))
    (s 10 0).st = .payload ∧ (s 10 0).sb.length < need 10 0 ∧ need 11 0 ≤ (s 11 0).sb.length ∧
      (s 23 1).sb.length < need 23 1 ∧ need 24 1 ≤ (s 24 1).sb.length := by decide +kernel

/-- VerifyStepReturnsOrRejects and DecodeWithoutResetReturnsTheSameFrame. -/
theorem test_witness_VerifyStepReturnsOrRejects :
    (decoded frameHB).st = .verify ∧ (decoded frameHB).f.hasValidCrc params = true ∧
      ((State.reset.store 0 frameHBbad).goto .verify).st = .verify ∧
      ((State.reset.store 0 frameHBbad).goto .verify).f.hasValidCrc params = false := by decide +kernel

/-- The invariant can be met while the decoder searches, holds a candidate, and keeps a returned frame. -/
theorem test_witness_Inv :
    Inv params (holding frameHB) ∧ Inv params (decoded (frameHB.take 12)) ∧ Inv params (decoded frameHB) := by
  have zero (bs : List Byte) {k : Nat} (h : 0 + bs.length ≤ k) : ZeroFrom k (frame bs) := fun i hi hk => by
    rw [frame, RawFrame.write_byte_of_ge _ _ (h.trans hk) hi, RawFrame.byte_zero]
  have ghost (s : State) (h : decide (s.ghost.cons ≤ s.ghost.stream.length ∧ s.ghost.stream.drop s.ghost.cons = s.sb ∧
      (s.st ≠ .search → 0 < s.ghost.cons ∧ s.ghost.stream[s.ghost.cons - 1]? = some Config.marker)) = true) :
      GhostInv s := by
    have := of_decide_eq_true h
    exact this
  have held : (decoded (frameHB.take 12)).st = .payload ∧ (decoded (frameHB.take 12)).f = frame (frameHB.take 10) ∧
      (decoded (frameHB.take 12)).sb = (frameHB.take 12).drop 1 := by decide +kernel
  have kept : (decoded frameHB).st = .verify ∧ (decoded frameHB).f = frame frameHB ∧
      (decoded frameHB).sb = frameHB.drop 1 := by decide +kernel
  refine ⟨⟨rfl, by decide +kernel, ghost _ (by decide +kernel)⟩, ⟨?_, by decide +kernel, ghost _ (by decide +kernel)⟩,
    ⟨?_, by decide +kernel, ghost _ (by decide +kernel)⟩⟩
  · simp only [FrameInv, held, State.peekMany]
    exact ⟨by decide +kernel, by decide +kernel, by decide +kernel, by decide +kernel, zero _ (by decide)⟩
  · simp only [FrameInv, kept, State.peekMany]
    exact ⟨by decide +kernel, by decide +kernel, by decide +kernel, by decide +kernel, by decide +kernel,
      zero _ (by decide +kernel)⟩

/-- ReturnedFrameStandsInTheStream: the first of the three states above, and the frame `DECODE` returns from it. -/
theorem test_witness_ReturnedFrameStandsInTheStream :
    Inv params (holding frameHB) ∧ runDecode params (holding frameHB) = decoded frameHB ∧
      (decoded frameHB).result = .frame (frame frameHB) := ⟨test_witness_Inv.1, rfl, by decide +kernel⟩

theorem test_witness_NeedMoreLeavesFewBytes :
    exec .decode State.reset = .next (State.reset.answer .needMore) ∧
      (State.reset.answer .needMore).result = .needMore := ⟨rfl, rfl⟩

/-- EveryStepKeepsTheInvariant: a block with `CRC_INIT` at its port. -/
theorem test_witness_EveryStepKeepsTheInvariant :
    Inv Config.params (presented [0x10#8]) ∧ step (presented [0x10#8]) = .next State.reset :=
  ⟨⟨rfl, fits_of_le _ (by decide), by decide, rfl, fun h => absurd rfl h⟩, rfl⟩

/-- OnlyDecoderOperationsChangeTheDecoder and StreamBufferIsAFifo: next states of four kinds of instruction. -/
theorem test_witness_OnlyDecoderOperationsChangeTheDecoder :
    exec .reset State.reset = .next State.reset ∧ exec .crcInit State.reset = .next State.reset ∧
      exec (.push [0xFD#8]) State.reset = .next (holding [0xFD#8]) ∧
      exec .decode (holding [0x00#8]) = .next ((holding [0x00#8]).consume.answer .needMore) := ⟨rfl, rfl, rfl, rfl⟩

theorem test_witness_GhostValuesAreNeverRead :
    SameBlock State.reset { State.reset with ghost := { cons := 5, stream := [0x01#8], rejections := [(.crc, 1)] } } :=
  ⟨rfl, rfl, rfl, rfl, rfl, rfl⟩

theorem test_witness_NoiseIsSkipped :
    (holding [0x00#8, 0xFC#8, 0xFD#8]).st = .search ∧
      (holding [0x00#8, 0xFC#8, 0xFD#8]).sb = [0x00#8, 0xFC#8] ++ [0xFD#8] ∧ 0xFD#8 ∉ [0x00#8, 0xFC#8] := by decide +kernel

/-- FalseStartCostsOneByte, for both causes. -/
theorem test_witness_FalseStartCostsOneByte :
    (holding frameU2).st = .search ∧ (holding frameU2).sb = 0xFD#8 :: frameU2.drop 1 ∧
      verdict params (frameU2.drop 1) = .rejected .iflags ∧ (holding frameHBbad).sb = 0xFD#8 :: frameHBbad.drop 1 ∧
      verdict params (frameHBbad.drop 1) = .rejected .crc := by decide +kernel

theorem test_witness_DrainReturnsExactlyTheValidOccurrences :
    (holding frameO).st = .search ∧ (holding (frameA ++ frameHB)).st = .search := by decide +kernel

/-- ChunkingDoesNotMatter, at the smallest capacity filled to the last byte. -/
theorem test_witness_ChunkingDoesNotMatter :
    fits smallParams (State.reset.sb.length + [frameHB, [], List.replicate 258 0x00#8].flatten.length) = true := by
  decide +kernel

theorem test_witness_BackToBackFramesComeOutInOrder :
    State.reset.st = .search ∧ State.reset.sb = [] ∧
      ∀ fr ∈ [frame frameHB, frame frameSG, frame frameE0], fr.byte 0 = 0xFD#8 ∧
        flagsAcceptable params (fr.byte 2) = true ∧ fr.hasValidCrc params = true ∧
        ∀ i < fr.frameLength params, 1 ≤ i → fr.byte i ≠ 0xFD#8 := by decide +kernel

theorem test_witness_FrameArrivalRunsTheDecoder :
    fits Config.params (State.reset.sb.length + (encode (.frameV2Unsigned fieldsHB)).length) = true ∧
      fits Config.params (State.reset.sb.length + (encode (.frameV2Signed fieldsSG signatureSG)).length) = true :=
  ⟨fits_of_le _ (by decide), fits_of_le _ (by decide)⟩

/-- The bytes of `HB` that its checksum covers, with other flags. -/
def coveredHB (flags : Byte) : List Byte := [9#8, flags, 0#8, 7#8, 1#8, 1#8, 0#8, 0#8, 0#8] ++ payloadHB

/-- `HB` with other flags and the checksum it then needs. -/
def sealedHB (flags : Byte) : FrameFields :=
  { fieldsHB with incompatFlags := flags, checksum := crc16 (coveredHB flags) (Config.seed 0#24) }

/-- ValidFrameIsReturnedWhole, for any parameters: a frame with the flags that say so and the checksum it needs. -/
theorem test_witness_ValidFrameIsReturnedWhole :
    State.reset.st = .search ∧ State.reset.sb = [] ∧
      (Instr.frameV2Unsigned (sealedHB 0x00#8)).wellFormed Config.params = true ∧
      (sealedHB 0x00#8).incompatFlags &&& ~~~Config.params.supportedIflags = 0x00#8 ∧
      (sealedHB 0x00#8).checksum =
        crc16 (((encode (.frameV2Unsigned (sealedHB 0x00#8))).drop 1).take (9 + 9)) (Config.seed 0#24) ∧
      (Instr.frameV2Signed (sealedHB Config.params.iflagSigned) signatureSG).wellFormed Config.params = true ∧
      (sealedHB Config.params.iflagSigned).incompatFlags &&& ~~~Config.params.supportedIflags = 0x00#8 ∧
      (∀ cap, Config.params.capacity = some cap →
        (encode (.frameV2Signed (sealedHB Config.params.iflagSigned) signatureSG)).length ≤ cap) ∧
      (sealedHB Config.params.iflagSigned).checksum =
        crc16 (((encode (.frameV2Signed (sealedHB Config.params.iflagSigned) signatureSG)).drop 1).take (9 + 9))
          (Config.seed 0#24) := by
  have covered (flags : Byte) (tail : List Byte) :
      coveredHB flags = ((putFields (sealedHB flags) ++ tail).drop 1).take (9 + 9) := by
    simp [coveredHB, putFields, sealedHB, fieldsHB, payloadHB, bytes, leBytes]
  have own (k : Fin 8) (m : Byte) : (1#8 <<< k.val) &&& ~~~((1#8 <<< k.val) ||| m) = 0x00#8 := by
    rw [BitVec.not_or, ← BitVec.and_assoc, BitVec.and_not_self]
    simp
  have bit : ∀ k : Fin 8, (1#8 <<< k.val) &&& (1#8 <<< k.val) ≠ 0x00#8 := by decide
  have h2 : isSigned Config.params Config.params.iflagSigned = true := bne_iff_ne.mpr (bit _)
  have room (cap : Nat) (h : Config.params.capacity = some cap) : 279 ≤ cap :=
    (fits_iff Config.params 279).mp (fits_of_le _ (Nat.le_refl 279)) cap h
  have short : (encode (.frameV2Signed (sealedHB Config.params.iflagSigned) signatureSG)).length ≤ 279 := by
    simp [encode, putFields, putSignature, sealedHB, fieldsHB, payloadHB, signatureSG, bytes]
  refine ⟨rfl, rfl, ?_, BitVec.zero_and, ?_, ?_, own _ _, fun cap h => short.trans (room cap h), ?_⟩
  · simp [Instr.wellFormed, FrameFields.wellFormed, sealedHB, fieldsHB, payloadHB, bytes, isSigned]
  · exact congrArg (fun bs => crc16 bs (Config.seed 0#24)) ((covered _ []).trans (by rw [List.append_nil, encode]))
  · simp [Instr.wellFormed, FrameFields.wellFormed, sealedHB, fieldsHB, payloadHB, bytes, signatureSG, h2]
  · exact congrArg (fun bs => crc16 bs (Config.seed 0#24)) (covered _ (putSignature signatureSG))

/-- A fresh block with these bytes on the link. -/
def onLink (bs : List Byte) : State := { State.reset with port := { format := .frame, bytes := bs } }

/-- LinkIsTotalOnEveryByteSequence, clause by clause: a whole frame and bytes that are none, both of which fit; a byte other
than the marker; and a frame with an unsupported flag bit, of each row. -/
theorem test_witness_LinkIsTotalOnEveryByteSequence :
    (onLink frameHB).port = { format := .frame, bytes := frameHB } ∧ frameHB ≠ [] ∧
      fits Config.params ((onLink frameHB).sb.length + frameHB.length) = true ∧
      fits Config.params ((onLink [0xFD#8]).sb.length + [0xFD#8].length) = true ∧
      (onLink [0xFE#8]).st = .search ∧ (onLink [0xFE#8]).sb = [] ∧ (0xFE#8 : Byte) ≠ 0xFD#8 ∧
      State.reset.st = .search ∧ State.reset.sb = [] ∧
      (encode (.frameV2Unsigned { fieldsHB with incompatFlags := 0x02#8 }))[2]? = some 0x02#8 ∧
      0x02#8 &&& ~~~params.supportedIflags ≠ 0x00#8 ∧
      fits params (encode (.frameV2Unsigned { fieldsHB with incompatFlags := 0x02#8 })).length = true ∧
      (encode (.frameV2Signed { fieldsSG with incompatFlags := 0x03#8 } signatureSG))[2]? = some 0x03#8 ∧
      0x03#8 &&& ~~~params.supportedIflags ≠ 0x00#8 ∧
      fits params (encode (.frameV2Signed { fieldsSG with incompatFlags := 0x03#8 } signatureSG)).length = true :=
  ⟨rfl, by decide, fits_of_le _ (by decide), fits_of_le _ (by decide), rfl, rfl, by decide, rfl, rfl, rfl, by decide,
    by decide, rfl, by decide, by decide⟩

end Sys2Proof.Tests
end

section
/-! PROOFS. The parameters meet the constraints of R5, by the way `Config.Params` reads its fields. -/

open Sys2Proof Sys2Proof.Machine

namespace Sys2Proof.Config

/-- The bits of `IFLAG_SIGNED`: the one at the position that the parameter names (R5, D4). -/
theorem Params.getLsbD_iflagSigned (p : Params) (j : Fin 8) :
    p.iflagSigned.getLsbD j = decide (j = p.signedBit) := by
  rw [Params.iflagSigned, ← BitVec.twoPow_eq, BitVec.getLsbD_twoPow]
  simp [Fin.ext_iff, eq_comm]

/-- The signed bit is a supported bit (R5). -/
theorem Params.iflagSigned_and_supportedIflags (p : Params) : p.iflagSigned &&& p.supportedIflags = p.iflagSigned := by
  ext i hi
  rw [Params.supportedIflags, BitVec.getElem_and, BitVec.getElem_or]
  exact inf_sup_self

/-- A bounded `SB_CAP` is at least 279 (R5, D11): 279 bytes fit whatever it is. -/
theorem Params.le_capacity {p : Params} {cap : Nat} (h : p.capacity = some cap) : 279 ≤ cap :=
  (fits_iff p 279).mp (fits_of_le p le_rfl) cap h

end Sys2Proof.Config

/-- Settles O7: one lemma for each of R5's three constraints. -/
theorem parametersMeetTheirConstraints : Obligations.ParametersMeetTheirConstraints := by
  intro p
  exact ⟨⟨p.signedBit, p.getLsbD_iflagSigned⟩, p.iflagSigned_and_supportedIflags, fun _ => Config.Params.le_capacity⟩
end

section
/-! PROOFS. No operation reads the ghost values (R9, R21): every named update of the state, every step of `DECODE`, its
loop, and so every instruction, keeps two states the same block. -/

namespace Sys2Proof.Machine

open Sys2Proof

variable {p : Config.Params} {s t : State}

/-- The same block is the same state but for the ghost values. -/
theorem sameBlock_iff : SameBlock s t ↔ ∃ g, t = { s with ghost := g } := by
  constructor
  · rintro ⟨hst, hf, hsb, hacc, hport, hresult⟩
    refine ⟨t.ghost, ?_⟩
    rw [hst, hf, hsb, hacc, hport, hresult]
  · rintro ⟨g, rfl⟩
    exact ⟨rfl, rfl, rfl, rfl, rfl, rfl⟩

/-! What the block reads of its own state is the same. -/

theorem SameBlock.st_eq (h : SameBlock s t) : s.st = t.st := by
  obtain ⟨g, rfl⟩ := sameBlock_iff.mp h
  rfl

theorem SameBlock.f_eq (h : SameBlock s t) : s.f = t.f := by
  obtain ⟨g, rfl⟩ := sameBlock_iff.mp h
  rfl

theorem SameBlock.sb_eq (h : SameBlock s t) : s.sb = t.sb := by
  obtain ⟨g, rfl⟩ := sameBlock_iff.mp h
  rfl

theorem SameBlock.acc_eq (h : SameBlock s t) : s.acc = t.acc := by
  obtain ⟨g, rfl⟩ := sameBlock_iff.mp h
  rfl

theorem SameBlock.peekMany_eq (h : SameBlock s t) (i k : Nat) : s.peekMany i k = t.peekMany i k := by
  rw [State.peekMany, h.sb_eq, ← State.peekMany]

/-! The named updates of the state. -/

/-- An update keeps the same block, if other ghost values change nothing but ghost values in what it gives. -/
theorem SameBlock.map (h : SameBlock s t) (f : State → State)
    (hf : ∀ u g, SameBlock (f u) (f { u with ghost := g })) : SameBlock (f s) (f t) := by
  obtain ⟨g, rfl⟩ := sameBlock_iff.mp h
  exact hf s g

theorem SameBlock.answer (h : SameBlock s t) (r : Result) : SameBlock (s.answer r) (t.answer r) :=
  h.map (State.answer · r) fun _ _ => ⟨rfl, rfl, rfl, rfl, rfl, rfl⟩

theorem SameBlock.setAcc (h : SameBlock s t) (a : Word16) : SameBlock { s with acc := a } { t with acc := a } :=
  h.map (fun u => { u with acc := a }) fun _ _ => ⟨rfl, rfl, rfl, rfl, rfl, rfl⟩

theorem SameBlock.consume (h : SameBlock s t) : SameBlock s.consume t.consume :=
  h.map State.consume fun _ _ => ⟨rfl, rfl, rfl, rfl, rfl, rfl⟩

theorem SameBlock.append (h : SameBlock s t) (bs : List Byte) : SameBlock (s.append bs) (t.append bs) :=
  h.map (State.append · bs) fun _ _ => ⟨rfl, rfl, rfl, rfl, rfl, rfl⟩

theorem SameBlock.store (h : SameBlock s t) (off : Nat) (bs : List Byte) : SameBlock (s.store off bs) (t.store off bs) :=
  h.map (State.store · off bs) fun _ _ => ⟨rfl, rfl, rfl, rfl, rfl, rfl⟩

theorem SameBlock.goto (h : SameBlock s t) (st : DecoderState) : SameBlock (s.goto st) (t.goto st) :=
  h.map (State.goto · st) fun _ _ => ⟨rfl, rfl, rfl, rfl, rfl, rfl⟩

theorem SameBlock.reinit (h : SameBlock s t) : SameBlock s.reinit t.reinit :=
  h.map State.reinit fun _ _ => ⟨rfl, rfl, rfl, rfl, rfl, rfl⟩

/-- A rejection reads the ghost values only to write the ghost log (R192). -/
theorem SameBlock.reject (h : SameBlock s t) (c : RejectCause) : SameBlock (s.reject c) (t.reject c) :=
  h.map (State.reject · c) fun _ _ => ⟨rfl, rfl, rfl, rfl, rfl, rfl⟩

/-! The steps of `DECODE`. -/

/-- Two steps end alike: both go on, or both return, in states of the same block. -/
def StepResult.Alike : StepResult → StepResult → Prop
  | .goOn s, .goOn t => SameBlock s t
  | .done s, .done t => SameBlock s t
  | _, _ => False

/-- A part of `DECODE` that ends alike on states of the same block. -/
def GhostBlind (f : State → StepResult) : Prop := ∀ ⦃s t⦄, SameBlock s t → StepResult.Alike (f s) (f t)

theorem StepResult.Alike.andThen {r q : StepResult} {f : State → StepResult} (h : StepResult.Alike r q)
    (hf : GhostBlind f) : StepResult.Alike (r.andThen f) (q.andThen f) := by
  match r, q, h with
  | .goOn _, .goOn _, h => exact hf h
  | .done _, .done _, h => exact h

theorem ghostBlind_stepIn {f : State → StepResult} (hf : GhostBlind f) (st : DecoderState) :
    GhostBlind (stepIn st f) := by
  intro s t h
  unfold stepIn
  rw [← h.st_eq]
  split
  · exact hf h
  · exact h

theorem ghostBlind_stepSearch : GhostBlind stepSearch := by
  intro s t h
  unfold stepSearch
  rw [← h.sb_eq]
  split
  · exact h.answer _
  · split
    · exact (h.consume.store _ _).goto _
    · exact h.consume

theorem ghostBlind_stepHeader (p : Config.Params) : GhostBlind (stepHeader p) := by
  intro s t h
  have stored := h.store 1 (s.peekMany 0 9)
  simp only [stepHeader]
  rw [← h.sb_eq, ← h.peekMany_eq, ← stored.f_eq]
  split_ifs
  · exact h.answer _
  · exact stored.goto _
  · exact stored.reject _

theorem ghostBlind_stepPayload (p : Config.Params) : GhostBlind (stepPayload p) := by
  intro s t h
  unfold stepPayload
  rw [← h.sb_eq, ← h.f_eq, ← h.peekMany_eq]
  split_ifs
  · exact h.answer _
  · exact (h.store _ _).goto _

theorem ghostBlind_stepVerify (p : Config.Params) : GhostBlind (stepVerify p) := by
  intro s t h
  unfold stepVerify
  rw [← h.f_eq]
  split_ifs
  · exact h.answer _
  · exact h.reject _

/-! `DECODE` itself. -/

theorem ghostBlind_runCandidate (p : Config.Params) : GhostBlind (runCandidate p) := fun _ _ h =>
  ((ghostBlind_stepIn (ghostBlind_stepHeader p) .header h).andThen
    (ghostBlind_stepIn (ghostBlind_stepPayload p) .payload)).andThen
      (ghostBlind_stepIn (ghostBlind_stepVerify p) .verify)

theorem sameBlock_scan (h : SameBlock s t) (bs : List Byte) : SameBlock (scan p bs s) (scan p bs t) := by
  induction bs generalizing s t with
  | nil => exact h.answer .needMore
  | cons b rest ih =>
    have turn := (ghostBlind_stepSearch h).andThen (ghostBlind_runCandidate p)
    unfold scan
    match (stepSearch s).andThen (runCandidate p), (stepSearch t).andThen (runCandidate p), turn with
    | .done _, .done _, hd => exact hd
    | .goOn _, .goOn _, hg => exact ih hg

theorem sameBlock_runDecode (h : SameBlock s t) : SameBlock (runDecode p s) (runDecode p t) := by
  unfold runDecode
  match runCandidate p s, runCandidate p t, ghostBlind_runCandidate p h with
  | .done _, .done _, hd => exact hd
  | .goOn u, .goOn v, (hg : SameBlock u v) =>
    change SameBlock (scan p u.sb u) (scan p v.sb v)
    rw [← hg.sb_eq]
    exact sameBlock_scan hg u.sb

/-! The instructions that read the state or can be refused; whether they are refused depends on the operands and on
`SB.len`. -/

theorem alike_execPush (h : SameBlock s t) (bs : List Byte) : Alike SameBlock (execPush bs s) (execPush bs t) := by
  unfold execPush State.appendIfFits
  rw [← h.sb_eq]
  split_ifs
  · exact (h.append bs).answer .none
  · exact rfl

theorem alike_receiveBytes (h : SameBlock s t) (bs : List Byte) :
    Alike SameBlock (receiveBytes p bs s) (receiveBytes p bs t) := by
  unfold receiveBytes State.appendIfFits
  rw [← h.sb_eq]
  split_ifs
  · exact sameBlock_runDecode (h.append bs)
  · exact rfl

theorem alike_execCrcAcc (h : SameBlock s t) (b : Byte) : Alike SameBlock (execCrcAcc b s) (execCrcAcc b t) := by
  unfold execCrcAcc
  rw [← h.acc_eq]
  exact (h.setAcc _).answer .none

theorem alike_execCrcGet (h : SameBlock s t) : Alike SameBlock (execCrcGet s) (execCrcGet t) := by
  unfold execCrcGet
  rw [← h.acc_eq]
  exact h.answer _

theorem alike_execSetPayload (h : SameBlock s t) (fr : RawFrame) (bs : List Byte) :
    Alike SameBlock (execSetPayload fr bs s) (execSetPayload fr bs t) := by
  unfold execSetPayload
  split
  · exact h.answer _
  · exact rfl

theorem alike_execSetSignature (h : SameBlock s t) (fr : RawFrame) (bs : List Byte) :
    Alike SameBlock (execSetSignature fr bs s) (execSetSignature fr bs t) := by
  unfold execSetSignature
  split_ifs
  · exact rfl
  · exact h.answer _
  · exact rfl

/-- Every instruction ends alike; those that share an arm below only answer a function of their operands. -/
theorem alike_exec (h : SameBlock s t) (i : Instr) : Alike SameBlock (exec i s) (exec i t) := by
  cases i with
  | push bs => exact alike_execPush h bs
  | decode => exact sameBlock_runDecode h
  | reset => exact h.reinit.answer .none
  | crcInit => exact (h.setAcc _).answer .none
  | crcAcc b => exact alike_execCrcAcc h b
  | crcGet => exact alike_execCrcGet h
  | setPayload fr bs => exact alike_execSetPayload h fr bs
  | setSignature fr bs => exact alike_execSetSignature h fr bs
  | frameV2Unsigned | frameV2Signed => exact alike_receiveBytes h _
  | crcCompute | getMagic | getPayloadLength | getIncompatFlags | getCompatFlags | getSequence | getSystemId
  | getComponentId | getMessageId | getPayload | getChecksum | getSignature | signatureLength | rawBytes | hasValidCrc
  | setMagic | setPayloadLength | setIncompatFlags | setCompatFlags | setSequence | setSystemId | setComponentId
  | setMessageId | setChecksum => exact h.answer _

end Sys2Proof.Machine

/-- Settles O52: states of the same block stay so through every instruction. -/
theorem ghostValuesAreNeverRead : Obligations.GhostValuesAreNeverRead := fun i _ _ h => Sys2Proof.Machine.alike_exec h i
end

section
/-! PROOFS. What an instruction can do to the state, said once (R38), and what `DECODE` can do, turn by turn (R151):
`ACC`, the port and `STREAM` stay, and bytes leave the stream buffer at its front only (R14, R17, R33). -/

open Sys2Proof Sys2Proof.Machine

namespace Sys2Proof.Machine

variable {p : Config.Params} {s t u : State} {i : Instr}

/-- A turn of `DECODE`'s loop that goes on: the rows of R151 that do not return. -/
inductive Turn (p : Config.Params) (s : State) : State → Prop where
  /-- The front byte is the marker: a candidate is held (R143). -/
  | hold {rest : List Byte} (st : s.st = .search) (sb : s.sb = Config.marker :: rest) :
    Turn p s ((s.consume.store 0 [Config.marker]).goto .header)
  /-- The front byte is another: it is skipped (R143). -/
  | skip {b : Byte} {rest : List Byte} (st : s.st = .search) (sb : s.sb = b :: rest) (other : b ≠ Config.marker) :
    Turn p s s.consume
  /-- The header is copied and its flags are acceptable (R144). -/
  | copyHeader (st : s.st = .header) (present : 9 ≤ s.sb.length)
    (flags : flagsAcceptable p ((s.f.write 1 (s.sb.take 9)).byte 2) = true) :
    Turn p s ((s.store 1 (s.sb.take 9)).goto .payload)
  /-- The trailing bytes are copied (R145). -/
  | copyTrailing (st : s.st = .payload) (present : 9 + s.f.trailingLength p ≤ s.sb.length) :
    Turn p s ((s.store 10 ((s.sb.drop 9).take (s.f.trailingLength p))).goto .verify)
  /-- The flags of the copied header are not acceptable (R144). -/
  | rejectFlags (st : s.st = .header) (present : 9 ≤ s.sb.length)
    (flags : flagsAcceptable p ((s.f.write 1 (s.sb.take 9)).byte 2) = false) :
    Turn p s ((s.store 1 (s.sb.take 9)).reject .iflags)
  /-- The checksum differs (R146). -/
  | rejectChecksum (st : s.st = .verify) (crc : s.f.hasValidCrc p = false) : Turn p s (s.reject .crc)

theorem turn_of_decodeStep (h : decodeStep p s = .goOn t) : Turn p s t := by
  unfold decodeStep at h
  split at h <;> rename_i hst
  · obtain ⟨rest, hsb, rfl⟩ | ⟨b, rest, hsb, hb, rfl⟩ := stepSearch_goOn h
    · exact .hold hst hsb
    · exact .skip hst hsb hb
  · obtain ⟨hlen, ⟨hflags, rfl⟩ | ⟨hflags, rfl⟩⟩ := stepHeader_goOn h
    · exact .copyHeader hst hlen hflags
    · exact .rejectFlags hst hlen hflags
  · obtain ⟨hlen, rfl⟩ := stepPayload_goOn h
    exact .copyTrailing hst hlen
  · obtain ⟨hcrc, rfl⟩ := stepVerify_goOn h
    exact .rejectChecksum hst hcrc

/-- A turn that returns only answers; in `VERIFY` it does so where the checksum is valid (R146). -/
theorem decodeStep_done (h : decodeStep p s = .done t) :
    (∃ r, t = s.answer r) ∧ (s.st = .verify → s.f.hasValidCrc p = true) := by
  unfold decodeStep at h
  split at h <;> rename_i hst
  · obtain ⟨-, rfl⟩ := stepSearch_done h
    exact ⟨⟨_, rfl⟩, by simp [hst]⟩
  · obtain ⟨-, rfl⟩ := stepHeader_done h
    exact ⟨⟨_, rfl⟩, by simp [hst]⟩
  · obtain ⟨-, rfl⟩ := stepPayload_done h
    exact ⟨⟨_, rfl⟩, by simp [hst]⟩
  · obtain ⟨hcrc, rfl⟩ := stepVerify_done h
    exact ⟨⟨_, rfl⟩, fun _ => hcrc⟩

/-- What lies outside the decoder's own state is kept, but for `n` bytes taken from the front of the stream buffer and
counted in `CONS` (R14, R33). -/
structure TakesFront (s t : State) (n : Nat) : Prop where
  present : n ≤ s.sb.length
  sb : t.sb = s.sb.drop n
  cons : t.ghost.cons = s.ghost.cons + n
  stream : t.ghost.stream = s.ghost.stream
  acc : t.acc = s.acc
  port : t.port = s.port

theorem TakesFront.refl (s : State) : TakesFront s s 0 := ⟨Nat.zero_le _, rfl, rfl, rfl, rfl, rfl⟩

theorem TakesFront.trans {m n : Nat} (h : TakesFront s t m) (h' : TakesFront t u n) : TakesFront s u (m + n) where
  present := by
    have hs := h.present
    have ht := h'.present
    rw [h.sb, List.length_drop] at ht
    omega
  sb := by rw [h'.sb, h.sb, List.drop_drop]
  cons := by rw [h'.cons, h.cons, Nat.add_assoc]
  stream := h'.stream.trans h.stream
  acc := h'.acc.trans h.acc
  port := h'.port.trans h.port

/-- The search takes one byte; no other turn takes any. -/
theorem Turn.takesFront (h : Turn p s t) : ∃ n, TakesFront s t n := by
  cases h with
  | hold _ hsb | skip _ hsb => exact ⟨1, by simp [hsb], by simp, rfl, rfl, rfl, rfl⟩
  | copyHeader | copyTrailing | rejectFlags | rejectChecksum => exact ⟨0, Nat.zero_le _, rfl, rfl, rfl, rfl, rfl⟩

theorem runDecode_takesFront (p : Config.Params) (s : State) : ∃ n, TakesFront s (runDecode p s) n := by
  refine runDecode_induct (I := fun t => ∃ n, TakesFront s t n) (Q := fun t => ∃ n, TakesFront s t n) ?_ ?_ s
    ⟨0, .refl s⟩
  · rintro t u ⟨m, hm⟩ h
    obtain ⟨n, hn⟩ := (turn_of_decodeStep h).takesFront
    exact ⟨m + n, hm.trans hn⟩
  · rintro t u ⟨m, hm⟩ h
    obtain ⟨⟨r, rfl⟩, -⟩ := decodeStep_done h
    exact ⟨m, hm.present, hm.sb, hm.cons, hm.stream, hm.acc, hm.port⟩

/-- What an instruction that answers a next state has done: to `ACC`, or to the decoder and the stream buffer, or
nothing but to answer. -/
inductive Executes (s : State) : Instr → State → Prop where
  | push (bs : List Byte) (room : fits Config.params (s.sb.length + bs.length) = true) :
    Executes s (.push bs) ((s.append bs).answer .none)
  | decode : Executes s .decode (runDecode Config.params s)
  | reset : Executes s .reset (s.reinit.answer .none)
  | crcInit : Executes s .crcInit ({ s with acc := Config.crcInitValue }.answer .none)
  | crcAcc {b : Byte} : Executes s (.crcAcc b) ({ s with acc := crcStep s.acc b }.answer .none)
  /-- A wire format: its bytes are appended and `DECODE` runs (log 4). -/
  | receive {i : Instr} (bs : List Byte) (wire : i.format = .frame)
    (room : fits Config.params (s.sb.length + bs.length) = true) : Executes s i (runDecode Config.params (s.append bs))
  /-- Any other instruction has an effect on the result port only. -/
  | answer {i : Instr} {r : Result} (notInit : i ≠ .crcInit) (notAcc : ∀ b, i ≠ .crcAcc b) :
    Executes s i (s.answer r)

theorem executes_of_exec (h : exec i s = .next t) : Executes s i t := by
  cases i with
  | push bs =>
    obtain ⟨room, rfl⟩ := execPush_next.mp h
    exact .push bs room
  | decode => cases h; exact .decode
  | reset => cases h; exact .reset
  | crcInit => cases h; exact .crcInit
  | crcAcc => cases h; exact .crcAcc
  | setPayload =>
    obtain ⟨-, rfl⟩ := execSetPayload_next.mp h
    exact .answer (by simp) (by simp)
  | setSignature =>
    obtain ⟨-, -, rfl⟩ := execSetSignature_next.mp h
    exact .answer (by simp) (by simp)
  | frameV2Unsigned | frameV2Signed =>
    obtain ⟨room, rfl⟩ := receiveBytes_next.mp h
    exact .receive _ rfl room
  | crcGet | crcCompute | getMagic | getPayloadLength | getIncompatFlags | getCompatFlags | getSequence | getSystemId
  | getComponentId | getMessageId | getPayload | getChecksum | getSignature | signatureLength | rawBytes | hasValidCrc
  | setMagic | setPayloadLength | setIncompatFlags | setCompatFlags | setSequence | setSystemId | setComponentId
  | setMessageId | setChecksum =>
    cases h
    exact .answer (by simp) (by simp)

/-- The two wire formats are the instructions of the format FRAME (R50). -/
theorem format_ne_frame (hu : ∀ h, i ≠ .frameV2Unsigned h) (hs : ∀ h g, i ≠ .frameV2Signed h g) :
    i.format ≠ .frame := by
  cases i with
  | frameV2Unsigned h => exact absurd rfl (hu h)
  | frameV2Signed h g => exact absurd rfl (hs h g)
  | _ => exact Format.noConfusion

end Sys2Proof.Machine

/-- Settles O18: `DECODE` and a frame's arrival keep `ACC`, for every turn of `DECODE` does. -/
theorem onlyTheGeneratorWritesAcc : Obligations.OnlyTheGeneratorWritesAcc := by
  intro i s t h
  cases executes_of_exec h with
  | push | reset | crcInit | crcAcc => rfl
  | decode =>
    obtain ⟨n, taken⟩ := runDecode_takesFront Config.params s
    exact taken.acc
  | receive bs wire =>
    obtain ⟨n, taken⟩ := runDecode_takesFront Config.params (s.append bs)
    split
    · cases wire
    · cases wire
    · exact taken.acc
  | answer notInit notAcc =>
    split
    · exact absurd rfl notInit
    · exact absurd rfl (notAcc _)
    · rfl

/-- Settles O50: of what can write the decoder, the stream buffer or the port, only the instructions named do. -/
theorem onlyDecoderOperationsChangeTheDecoder : Obligations.OnlyDecoderOperationsChangeTheDecoder := by
  intro i s t h
  cases executes_of_exec h with
  | push => exact ⟨rfl, fun _ _ _ _ => ⟨rfl, rfl⟩, fun _ notPush _ _ => absurd rfl (notPush _)⟩
  | decode =>
    obtain ⟨n, taken⟩ := runDecode_takesFront Config.params s
    exact ⟨taken.port, fun notDecode => absurd rfl notDecode, fun notDecode => absurd rfl notDecode⟩
  | reset => exact ⟨rfl, fun _ notReset => absurd rfl notReset, fun _ _ _ _ => ⟨rfl, rfl, rfl⟩⟩
  | receive bs wire =>
    obtain ⟨n, taken⟩ := runDecode_takesFront Config.params (s.append bs)
    exact ⟨taken.port, fun _ _ hu hs => absurd wire (format_ne_frame hu hs),
      fun _ _ hu hs => absurd wire (format_ne_frame hu hs)⟩
  | crcInit | crcAcc | answer => exact ⟨rfl, fun _ _ _ _ => ⟨rfl, rfl⟩, fun _ _ _ _ => ⟨rfl, rfl, rfl⟩⟩

/-- Settles O51: `PUSH` and a frame's arrival add bytes, `DECODE` takes some from the front, and nothing else does
either. -/
theorem streamBufferIsAFifo : Obligations.StreamBufferIsAFifo := by
  intro i s t h
  cases executes_of_exec h with
  | push bs => exact ⟨bs, 0, Nat.zero_le _, rfl, rfl, rfl, fun _ _ _ => rfl⟩
  | decode =>
    obtain ⟨n, taken⟩ := runDecode_takesFront Config.params s
    exact ⟨[], n, by simpa using taken.present, by simpa using taken.sb, taken.cons, by simpa using taken.stream,
      fun notDecode => absurd rfl notDecode⟩
  | receive bs wire =>
    obtain ⟨n, taken⟩ := runDecode_takesFront Config.params (s.append bs)
    exact ⟨bs, n, taken.present, taken.sb, taken.cons, taken.stream,
      fun _ hu hs => absurd wire (format_ne_frame hu hs)⟩
  | reset | crcInit | crcAcc | answer =>
    exact ⟨[], 0, Nat.zero_le _, by simp, rfl, by simp, fun _ _ _ => rfl⟩
end

section
/-! PROOFS. No operation but `CRC_ACC` and `CRC_GET` reads `ACC` (R14): the steps of `DECODE`, its loop, and so every
other instruction, end the same way whatever `ACC` holds, and hand its value on. -/

namespace Sys2Proof.Machine

open Sys2Proof

variable {p : Config.Params} {a : Word16}

/-- The state with another value in `ACC`. -/
def State.setAcc (a : Word16) (s : State) : State := { s with acc := a }

@[simp] theorem State.setAcc_st (s : State) : (s.setAcc a).st = s.st := rfl
@[simp] theorem State.setAcc_f (s : State) : (s.setAcc a).f = s.f := rfl
@[simp] theorem State.setAcc_sb (s : State) : (s.setAcc a).sb = s.sb := rfl

/-- The same end of a step, in another state. -/
def StepResult.map (g : State → State) : StepResult → StepResult
  | .goOn s => .goOn (g s)
  | .done s => .done (g s)

/-- A part of `DECODE` that does not read `ACC`: another value in it changes what comes out by that value only. -/
def AccBlind (a : Word16) (f : State → StepResult) : Prop := ∀ s, f (s.setAcc a) = (f s).map (State.setAcc a)

theorem accBlind_andThen {f g : State → StepResult} (hf : AccBlind a f) (hg : AccBlind a g) :
    AccBlind a fun s => (f s).andThen g := by
  intro s
  change (f (s.setAcc a)).andThen g = ((f s).andThen g).map _
  rw [hf s]
  cases f s with
  | goOn t => exact hg t
  | done t => rfl

theorem accBlind_stepIn {f : State → StepResult} (hf : AccBlind a f) (st : DecoderState) :
    AccBlind a (stepIn st f) := by
  intro s
  by_cases hst : s.st = st
  · simpa [stepIn, hst] using hf s
  · simp [stepIn, hst, StepResult.map]

theorem accBlind_stepSearch : AccBlind a stepSearch := by
  intro s
  cases hsb : s.sb with
  | nil => simp only [stepSearch, State.setAcc_sb, hsb]; rfl
  | cons b rest =>
    by_cases hb : b = Config.marker <;> simp only [stepSearch, State.setAcc_sb, hsb, hb, ↓reduceIte] <;> rfl

theorem accBlind_stepHeader (p : Config.Params) : AccBlind a (stepHeader p) := by
  intro s
  by_cases hlen : s.sb.length < 9
  · simp only [stepHeader, State.setAcc_sb, hlen, ↓reduceIte]; rfl
  · by_cases hflags : flagsAcceptable p ((s.f.write 1 (s.sb.take 9)).byte 2) = true <;>
      simp only [stepHeader, State.setAcc_sb, State.setAcc_f, State.store_f, State.peekMany_eq, List.drop_zero, hlen,
        hflags, ↓reduceIte] <;> rfl

theorem accBlind_stepPayload (p : Config.Params) : AccBlind a (stepPayload p) := by
  intro s
  by_cases hlen : s.sb.length < 9 + s.f.trailingLength p <;>
    simp only [stepPayload, State.setAcc_sb, State.setAcc_f, hlen, ↓reduceIte] <;> rfl

theorem accBlind_stepVerify (p : Config.Params) : AccBlind a (stepVerify p) := by
  intro s
  by_cases hcrc : s.f.hasValidCrc p = true <;> simp only [stepVerify, State.setAcc_f, hcrc, ↓reduceIte] <;> rfl

theorem accBlind_runCandidate (p : Config.Params) : AccBlind a (runCandidate p) :=
  accBlind_andThen
    (accBlind_andThen (accBlind_stepIn (accBlind_stepHeader p) .header)
      (accBlind_stepIn (accBlind_stepPayload p) .payload))
    (accBlind_stepIn (accBlind_stepVerify p) .verify)

theorem scan_setAcc (bs : List Byte) (s : State) : scan p bs (s.setAcc a) = (scan p bs s).setAcc a := by
  induction bs generalizing s with
  | nil => rfl
  | cons b rest ih =>
    have turn := accBlind_andThen (a := a) accBlind_stepSearch (accBlind_runCandidate p) s
    simp only [scan, turn]
    cases (stepSearch s).andThen (runCandidate p) with
    | done t => rfl
    | goOn t => exact ih t

theorem runDecode_setAcc (s : State) : runDecode p (s.setAcc a) = (runDecode p s).setAcc a := by
  simp only [runDecode, accBlind_runCandidate (a := a) p s]
  cases runCandidate p s with
  | done t => rfl
  | goOn t => exact scan_setAcc t.sb t

/-- Two ends that are alike but for the value `a` in `ACC` of the second. -/
abbrev AlikeButAcc (a : Word16) : Host.Outcome State Fault Refusal → Host.Outcome State Fault Refusal → Prop :=
  Alike fun t u => u = t.setAcc a

variable (s : State)

theorem execPush_setAcc (bs : List Byte) : AlikeButAcc a (execPush bs s) (execPush bs (s.setAcc a)) := by
  by_cases room : fits Config.params (s.sb.length + bs.length) = true <;>
    simp only [execPush, State.appendIfFits, State.setAcc_sb, room, ↓reduceIte] <;> exact rfl

theorem receiveBytes_setAcc (bs : List Byte) :
    AlikeButAcc a (receiveBytes p bs s) (receiveBytes p bs (s.setAcc a)) := by
  by_cases room : fits p (s.sb.length + bs.length) = true <;>
    simp only [receiveBytes, State.appendIfFits, State.setAcc_sb, room, ↓reduceIte]
  · exact runDecode_setAcc (s.append bs)
  · exact rfl

theorem execSetPayload_setAcc (fr : RawFrame) (bs : List Byte) :
    AlikeButAcc a (execSetPayload fr bs s) (execSetPayload fr bs (s.setAcc a)) := by
  unfold execSetPayload
  split <;> exact rfl

theorem execSetSignature_setAcc (fr : RawFrame) (bs : List Byte) :
    AlikeButAcc a (execSetSignature fr bs s) (execSetSignature fr bs (s.setAcc a)) := by
  unfold execSetSignature
  split_ifs <;> exact rfl

end Sys2Proof.Machine

open Sys2Proof Sys2Proof.Machine

/-- Settles O19: the instructions that share the last arm only answer a function of their operands. -/
theorem onlyTheGeneratorReadsAcc : Obligations.OnlyTheGeneratorReadsAcc := by
  intro i s a notAcc notGet notInit
  cases i with
  | push bs => exact execPush_setAcc s bs
  | decode => exact runDecode_setAcc s
  | reset => exact rfl
  | crcInit => exact absurd rfl notInit
  | crcAcc b => exact absurd rfl (notAcc b)
  | crcGet => exact absurd rfl notGet
  | setPayload fr bs => exact execSetPayload_setAcc s fr bs
  | setSignature fr bs => exact execSetSignature_setAcc s fr bs
  | frameV2Unsigned | frameV2Signed => exact receiveBytes_setAcc s _
  | crcCompute | getMagic | getPayloadLength | getIncompatFlags | getCompatFlags | getSequence | getSystemId
  | getComponentId | getMessageId | getPayload | getChecksum | getSignature | signatureLength | rawBytes | hasValidCrc
  | setMagic | setPayloadLength | setIncompatFlags | setCompatFlags | setSequence | setSystemId | setComponentId
  | setMessageId | setChecksum => exact rfl
end

section
/-! PROOFS. Every step keeps the invariant (R12, R33, R9). Inside `DECODE` the frame buffer always holds the front of
the stream buffer that has been copied into it, and only the checksum of a candidate in `VERIFY` is not yet known; where
`DECODE` returns, that too is. -/

open Sys2Proof Sys2Proof.Machine

namespace Sys2Proof

theorem RawFrame.slice_append (fr : RawFrame) {i j k : Nat} (hij : i ≤ j) (hjk : j ≤ k) :
    fr.slice i j ++ fr.slice j k = fr.slice i k := by
  simp only [RawFrame.slice]
  rw [show k - i = (j - i) + (k - j) by omega, List.take_add, List.drop_drop, show i + (j - i) = j by omega]

end Sys2Proof

namespace Sys2Proof.Machine

variable {p : Config.Params} {s t : State} {i : Instr}

theorem ZeroFrom.write {k m off : Nat} {fr : RawFrame} {bs : List Byte} (h : ZeroFrom k fr) (hk : k ≤ m)
    (hbs : off + bs.length ≤ m) : ZeroFrom m (fr.write off bs) := by
  intro i hi hm
  rw [fr.write_byte_of_ge bs (by omega) hi]
  exact h i hi (by omega)

/-! The frame buffer as a copy of the front of the stream buffer. -/

/-- A frame buffer that holds the marker and the first `k` of these bytes, and is zero beyond (R12). -/
structure Copied (k : Nat) (fr : RawFrame) (sb : List Byte) : Prop where
  marker : fr.byte 0 = Config.marker
  present : k ≤ sb.length
  copy : fr.slice 1 (1 + k) = sb.take k
  zero : ZeroFrom (1 + k) fr

/-- The marker is stored in a frame buffer that is zero (R143). -/
theorem copied_marker (sb : List Byte) : Copied 0 (RawFrame.zero.write 0 [Config.marker]) sb where
  marker := by simp [RawFrame.write_one_byte]
  present := Nat.zero_le _
  copy := by simp [RawFrame.slice]
  zero := ZeroFrom.write (k := 0) (fun i _ _ => RawFrame.byte_zero i) (Nat.zero_le _) le_rfl

/-- The next `m` bytes are copied behind the first `k` (R144, R145). -/
theorem Copied.write {k m : Nat} {fr : RawFrame} {sb : List Byte} (h : Copied k fr sb) (hm : k + m ≤ sb.length)
    (hF : k + m < 280) : Copied (k + m) (fr.write (1 + k) ((sb.drop k).take m)) sb := by
  have hlen : ((sb.drop k).take m).length = m := by rw [List.length_take, List.length_drop]; omega
  refine ⟨?_, hm, ?_, h.zero.write (by omega) (by omega)⟩
  · rw [RawFrame.write_byte_of_lt _ _ (by omega) (by omega), h.marker]
  · have front : (fr.write (1 + k) ((sb.drop k).take m)).slice 1 (1 + k) = sb.take k := by
      rw [← h.copy]
      exact RawFrame.slice_congr (by omega) fun j _ hj => RawFrame.write_byte_of_lt _ _ hj (by omega)
    have back := fr.write_slice (1 + k) ((sb.drop k).take m) (by omega)
    rw [hlen, Nat.add_assoc] at back
    rw [← RawFrame.slice_append _ (show 1 ≤ 1 + k by omega) (by omega), front, back, List.take_add]

theorem Copied.append {k : Nat} {fr : RawFrame} {sb : List Byte} (h : Copied k fr sb) (bs : List Byte) :
    Copied k fr (sb ++ bs) where
  marker := h.marker
  present := h.present.trans (by simp)
  copy := by rw [List.take_append_of_le_length h.present, h.copy]
  zero := h.zero

/-! R12's table, inside `DECODE` and at its end. -/

/-- What holds of `F` for each value of `ST` at every turn of `DECODE`'s loop: R12 but for the checksum of a candidate
that is not yet judged. -/
def CandidateInv (p : Config.Params) (s : State) : Prop :=
  match s.st with
  | .search => s.f = RawFrame.zero
  | .header => Copied 0 s.f s.sb
  | .payload => Copied 9 s.f s.sb ∧ flagsAcceptable p (s.f.byte 2) = true
  | .verify => Copied (9 + s.f.trailingLength p) s.f s.sb ∧ flagsAcceptable p (s.f.byte 2) = true

/-- R12's table is that, with the checksum. -/
theorem frameInv_iff : FrameInv p s ↔ CandidateInv p s ∧ (s.st = .verify → s.f.hasValidCrc p = true) := by
  unfold FrameInv CandidateInv
  cases s.st with
  | search => simp
  | header =>
    simp only [reduceCtorEq, false_implies, and_true]
    exact ⟨fun ⟨hm, hz⟩ => ⟨hm, Nat.zero_le _, by simp [RawFrame.slice], hz⟩, fun h => ⟨h.marker, h.zero⟩⟩
  | payload =>
    simp only [reduceCtorEq, false_implies, and_true]
    exact ⟨fun ⟨hm, hl, hc, hf, hz⟩ => ⟨⟨hm, hl, hc, hz⟩, hf⟩,
      fun ⟨h, hf⟩ => ⟨h.marker, h.present, h.copy, hf, h.zero⟩⟩
  | verify =>
    have hL : s.f.frameLength p = 1 + (9 + s.f.trailingLength p) := by rw [RawFrame.frameLength]; omega
    simp only [hL, Nat.add_sub_cancel_left, forall_const]
    exact ⟨fun ⟨hm, hl, hc, hf, hcrc, hz⟩ => ⟨⟨⟨hm, hl, hc, hz⟩, hf⟩, hcrc⟩,
      fun ⟨⟨h, hf⟩, hcrc⟩ => ⟨h.marker, h.present, h.copy, hf, hcrc, h.zero⟩⟩

theorem CandidateInv.append (h : CandidateInv p s) (bs : List Byte) : CandidateInv p (s.append bs) := by
  unfold CandidateInv at h ⊢
  rw [State.append_st]
  split at h
  · exact h
  · exact h.append bs
  · obtain ⟨hcopied, hflags⟩ := h
    exact ⟨hcopied.append bs, hflags⟩
  · obtain ⟨hcopied, hflags⟩ := h
    exact ⟨hcopied.append bs, hflags⟩

/-- The trailing bytes are stored behind the two bytes that give their number, and behind the flags (R61). -/
theorem trailingLength_write (fr : RawFrame) (bs : List Byte) :
    (fr.write 10 bs).trailingLength p = fr.trailingLength p :=
  RawFrame.trailingLength_congr p (fr.write_byte_of_lt bs (by omega) (by omega))
    (fr.write_byte_of_lt bs (by omega) (by omega))

theorem CandidateInv.turn (h : CandidateInv p s) (ht : Turn p s t) : CandidateInv p t := by
  unfold CandidateInv at h
  cases ht with
  | hold hst =>
    rw [hst] at h
    rw [CandidateInv, State.goto_st, State.goto_f, State.store_f, State.consume_f, h]
    exact copied_marker _
  | skip hst =>
    rw [hst] at h
    simpa [CandidateInv, hst] using h
  | copyHeader hst hlen hflags =>
    rw [hst] at h
    exact ⟨Copied.write (m := 9) h (by omega) (by omega), hflags⟩
  | copyTrailing hst hlen =>
    rw [hst] at h
    obtain ⟨h, hflags⟩ := h
    have hT := s.f.trailingLength_bounds p
    refine ⟨?_, ?_⟩
    · rw [State.goto_f, State.store_f, trailingLength_write]
      exact h.write hlen (by omega)
    · rw [State.goto_f, State.store_f, RawFrame.write_byte_of_lt _ _ (by omega) (by omega)]
      exact hflags
  | rejectFlags | rejectChecksum => exact rfl

/-! The place of the stream buffer in the stream. -/

/-- The front byte of the stream buffer is `STREAM[CONS]`, and the bytes behind it follow (R9). -/
theorem GhostInv.front {b : Byte} {rest : List Byte} (h : GhostInv s) (hsb : s.sb = b :: rest) :
    s.ghost.cons + 1 ≤ s.ghost.stream.length ∧ s.ghost.stream.drop (s.ghost.cons + 1) = rest ∧
      s.ghost.stream[s.ghost.cons]? = some b := by
  obtain ⟨-, hdrop, -⟩ := h
  rw [hsb] at hdrop
  have hget : s.ghost.stream[s.ghost.cons]? = some b := by
    rw [← List.head?_drop, hdrop, List.head?_cons]
  obtain ⟨hlt, -⟩ := List.getElem?_eq_some_iff.mp hget
  exact ⟨hlt, by rw [← List.tail_drop, hdrop, List.tail_cons], hget⟩

theorem GhostInv.append (h : GhostInv s) (bs : List Byte) : GhostInv (s.append bs) := by
  obtain ⟨hle, hdrop, hheld⟩ := h
  refine ⟨?_, ?_, fun hst => ?_⟩
  · rw [State.append_ghost_cons, State.append_ghost_stream, List.length_append]
    omega
  · rw [State.append_ghost_cons, State.append_ghost_stream, List.drop_append_of_le_length hle, hdrop, State.append_sb]
  · obtain ⟨hpos, hmarker⟩ := hheld hst
    refine ⟨hpos, ?_⟩
    rw [State.append_ghost_cons, State.append_ghost_stream, List.getElem?_append_left (by omega), hmarker]

theorem GhostInv.turn (h : GhostInv s) (ht : Turn p s t) : GhostInv t := by
  cases ht with
  | hold _ hsb =>
    obtain ⟨hle, hdrop, hget⟩ := h.front hsb
    exact ⟨hle, by simpa [hsb] using hdrop, fun _ => ⟨Nat.succ_pos _, hget⟩⟩
  | skip hst hsb =>
    obtain ⟨hle, hdrop, -⟩ := h.front hsb
    exact ⟨hle, by simpa [hsb] using hdrop, fun hheld => absurd hst hheld⟩
  | copyHeader hst | copyTrailing hst =>
    obtain ⟨hle, hdrop, hheld⟩ := h
    exact ⟨hle, hdrop, fun _ => hheld (by simp [hst])⟩
  | rejectFlags | rejectChecksum =>
    obtain ⟨hle, hdrop, -⟩ := h
    exact ⟨hle, hdrop, fun hheld => absurd rfl hheld⟩

/-! The invariant. -/

/-- The invariant of `DECODE`'s loop. -/
def LoopInv (p : Config.Params) (s : State) : Prop :=
  CandidateInv p s ∧ Memory.wf p s.sb = true ∧ GhostInv s

theorem Inv.loopInv (h : Inv p s) : LoopInv p s := ⟨(frameInv_iff.mp h.1).1, h.2⟩

theorem TakesFront.wf {n : Nat} (h : TakesFront s t n) (hwf : Memory.wf p s.sb = true) : Memory.wf p t.sb = true :=
  fits_mono (by rw [h.sb, List.length_drop]; omega) hwf

theorem LoopInv.turn (h : LoopInv p s) (ht : Turn p s t) : LoopInv p t := by
  obtain ⟨hcand, hwf, hghost⟩ := h
  obtain ⟨n, taken⟩ := ht.takesFront
  exact ⟨hcand.turn ht, taken.wf hwf, hghost.turn ht⟩

theorem LoopInv.done (h : LoopInv p s) (hd : decodeStep p s = .done t) : Inv p t := by
  obtain ⟨hcand, hrest⟩ := h
  obtain ⟨⟨r, rfl⟩, hcrc⟩ := decodeStep_done hd
  exact ⟨frameInv_iff.mpr ⟨hcand, hcrc⟩, hrest⟩

theorem LoopInv.runDecode (h : LoopInv p s) : Inv p (runDecode p s) :=
  runDecode_induct (I := LoopInv p) (fun _ _ h ht => h.turn (turn_of_decodeStep ht)) (fun _ _ h hd => h.done hd) s h

theorem Inv.append (h : Inv p s) {bs : List Byte} (room : fits p (s.sb.length + bs.length) = true) :
    Inv p (s.append bs) := by
  obtain ⟨hframe, -, hghost⟩ := h
  obtain ⟨hcand, hcrc⟩ := frameInv_iff.mp hframe
  exact ⟨frameInv_iff.mpr ⟨hcand.append bs, hcrc⟩, Memory.wf_append (State.appendIfFits_of_fits room),
    hghost.append bs⟩

theorem Inv.reinit (h : Inv p s) : Inv p s.reinit := by
  obtain ⟨-, hwf, hle, hdrop, -⟩ := h
  exact ⟨rfl, hwf, hle, hdrop, fun hheld => absurd rfl hheld⟩

theorem Inv.executes (h : Inv Config.params s) (he : Executes s i t) : Inv Config.params t := by
  cases he with
  | push _ room => exact h.append room
  | decode => exact h.loopInv.runDecode
  | reset => exact h.reinit
  | receive _ _ room => exact (h.append room).loopInv.runDecode
  | crcInit | crcAcc | answer => exact h

theorem inv_reset (p : Config.Params) : Inv p State.reset :=
  ⟨rfl, Memory.wf_reset p, Nat.zero_le _, rfl, fun hheld => absurd rfl hheld⟩

end Sys2Proof.Machine

/-- Settles O49: a step does nothing, runs an instruction, or takes a byte of the link; taking bytes from the port
touches nothing that the invariant speaks of. -/
theorem everyStepKeepsTheInvariant : Obligations.EveryStepKeepsTheInvariant := by
  intro s t hs h
  obtain rfl | ⟨i, rest, -, hexec⟩ | ⟨b, rest, -, hlink⟩ := step_next h
  · exact hs
  · have taken : Inv Config.params { s with port := { s.port with bytes := rest } } := hs
    exact taken.executes (executes_of_exec hexec)
  · have taken : Inv Config.params { s with port := { s.port with bytes := rest } } := hs
    obtain ⟨room, rfl⟩ := receiveBytes_next.mp hlink
    exact (taken.append room).loopInv.runDecode

/-- Settles O48: nothing is held and nothing has been appended. -/
theorem powerOnMeetsTheInvariant : Obligations.PowerOnMeetsTheInvariant := inv_reset Config.params

/-- Settles O8: the frame buffer is the zero frame; the rest is as `State.reset` writes it. -/
theorem powerOnState : Obligations.PowerOnState :=
  ⟨rfl, fun i _ => RawFrame.byte_zero i, rfl, rfl, rfl, rfl⟩
end

section
/-! PROOFS. How `DECODE` returns, said once (R142, R149, R151): it waits for bytes that are not there, or it has the frame
in `F`. A decoder that waits has decided all but the last 278 bytes (R44, R178). And a step is its instruction (R38). -/

open Sys2Proof Sys2Proof.Machine

namespace Sys2Proof.Machine

variable {p : Config.Params} {s t : State}

/-- How `DECODE` returns: the three `NeedMore` rows of R151, and the row that returns a frame. -/
inductive Returned (p : Config.Params) (t : State) : Prop where
  /-- It cannot go on without more bytes (R143 to R145). -/
  | needMore (result : t.result = .needMore) (waiting : Waiting p t)
  /-- It has a frame whose checksum matches (R146). -/
  | frame (result : t.result = .frame t.f) (st : t.st = .verify) (crc : t.f.hasValidCrc p = true)

theorem returned_of_decodeStep (h : decodeStep p s = .done t) : Returned p t := by
  unfold decodeStep at h
  split at h <;> rename_i hst
  · obtain ⟨hsb, rfl⟩ := stepSearch_done h
    exact .needMore rfl (by simpa [Waiting, hst] using hsb)
  · obtain ⟨hlen, rfl⟩ := stepHeader_done h
    exact .needMore rfl (by simpa [Waiting, hst] using hlen)
  · obtain ⟨hlen, rfl⟩ := stepPayload_done h
    exact .needMore rfl (by simpa [Waiting, hst] using hlen)
  · obtain ⟨hcrc, rfl⟩ := stepVerify_done h
    exact .frame rfl hst hcrc

theorem returned_runDecode (p : Config.Params) (s : State) : Returned p (runDecode p s) :=
  runDecode_induct (I := fun _ => True) (fun _ _ _ _ => trivial) (fun _ _ _ h => returned_of_decodeStep h) s trivial

/-- A decoder that waits holds fewer bytes than the longest frame has after its marker (R44): `9 + T` is at most 279. -/
theorem Waiting.length_sb_le (h : Waiting p s) : s.sb.length ≤ 278 := by
  have hT := (s.f.trailingLength_bounds p).2
  unfold Waiting at h
  split at h
  · simp [h]
  · omega
  · omega
  · exact h.elim

theorem step_of_decodePort {i : Instr} {rest : List Byte}
    (h : decodePort Config.params s.port.format s.port.bytes = .ok i rest) :
    step s = exec i { s with port := { s.port with bytes := rest } } := by
  simp only [step, fetch, h]

end Sys2Proof.Machine

/-- Settles O47: where `DECODE` answers `NeedMore` it waits, and a decoder that waits has few bytes. -/
theorem needMoreLeavesFewBytes : Obligations.NeedMoreLeavesFewBytes := by
  rintro s _ ⟨⟩ hr
  cases returned_runDecode Config.params s with
  | needMore _ hwait => exact hwait.length_sb_le
  | frame hframe => simp [hframe] at hr

/-- Settles O5: the fetch takes the decoded bytes from the port; the step is the instruction on that state. -/
theorem stepRunsTheDecodedInstruction : Obligations.StepRunsTheDecodedInstruction :=
  fun _ _ _ _ h => step_of_decodePort h
end

section
/-! PROOFS. The port's decoder and the encoder undo each other (R50, R65, R66): a row of the command table reads what is
written for its instruction, and what a row has read is the encoding of what it answers. -/

open Sys2Proof Sys2Proof.Machine

namespace Sys2Proof

variable {p : Config.Params} {code : Byte} {i : Instr} {operands rest : List Byte}

/-- A command is decoded by its row of the table (R65). -/
theorem decodePort_of_lookup {read : Reader} (row : cmd8Table.lookup code = some read)
    (h : read operands = some (i, rest)) : decodePort p .cmd8 (code :: operands) = .ok i rest := by
  simp only [decodePort, decodeCommand, row, h]

/-- A frame is decoded from the bytes after its marker (R50). -/
theorem decodePort_of_readAfterMarker (h : readAfterMarker p operands = some (i, rest)) :
    decodePort p .frame (Config.marker :: operands) = .ok i rest := by
  simp only [decodePort, decodeLink, ↓reduceIte, h]

theorem wellFormed_frameV2Unsigned {h : FrameFields} :
    (Instr.frameV2Unsigned h).wellFormed p = true ↔ h.payload.length ≤ 255 ∧ isSigned p h.incompatFlags = false := by
  simp [Instr.wellFormed, FrameFields.wellFormed]

theorem wellFormed_frameV2Signed {h : FrameFields} {sig : Signature} :
    (Instr.frameV2Signed h sig).wellFormed p = true ↔
      h.payload.length ≤ 255 ∧ isSigned p h.incompatFlags = true ∧ sig.mac.length = 6 := by
  simp [Instr.wellFormed, FrameFields.wellFormed, and_assoc]

theorem decodePort_frameV2Unsigned {h : FrameFields} (len : h.payload.length ≤ 255)
    (unsigned : isSigned p h.incompatFlags = false) (rest : List Byte) :
    decodePort p .frame (putFields h ++ rest) = .ok (.frameV2Unsigned h) rest := by
  refine decodePort_of_readAfterMarker (operands := (putFields h).drop 1 ++ rest) ?_
  rw [readAfterMarker_append p len, if_neg (by simp [unsigned])]

theorem decodePort_frameV2Signed {h : FrameFields} {sig : Signature} (len : h.payload.length ≤ 255)
    (signed : isSigned p h.incompatFlags = true) (mac : sig.mac.length = 6) (rest : List Byte) :
    decodePort p .frame (putFields h ++ (putSignature sig ++ rest)) = .ok (.frameV2Signed h sig) rest := by
  refine decodePort_of_readAfterMarker (operands := (putFields h).drop 1 ++ (putSignature sig ++ rest)) ?_
  rw [readAfterMarker_append p len, if_pos signed, takeSignature_append mac]
  rfl

/-! The other direction, row by row. -/

/-- The command `i` is well formed, and its encoding is this code and these operands. -/
structure Encodes (code : Byte) (i : Instr) (operands : List Byte) : Prop where
  format : i.format = .cmd8
  wellFormed : ∀ p, i.wellFormed p = true
  encode : encode i = code :: operands

/-- Whatever a row of the command table reads is the encoding of the instruction that it answers. -/
def RowReadsEncodings (row : Byte × Reader) : Prop :=
  ∀ bs i rest, row.2 bs = some (i, rest) → ∃ operands, bs = operands ++ rest ∧ Encodes row.1 i operands

theorem rowReadsEncodings_none (h : Encodes code i [] := by exact ⟨rfl, fun _ => rfl, rfl⟩) :
    RowReadsEncodings (code, readNone i) := by
  rintro bs _ _ ⟨⟩
  exact ⟨[], rfl, h⟩

theorem rowReadsEncodings_byte {f : Byte → Instr}
    (h : ∀ b, Encodes code (f b) [b] := by exact fun _ => ⟨rfl, fun _ => rfl, rfl⟩) :
    RowReadsEncodings (code, readByte f) := by
  intro bs i rest hr
  obtain ⟨b, rfl, rfl⟩ := readByte_eq_some hr
  exact ⟨[b], rfl, h b⟩

theorem rowReadsEncodings_sequence {f : List Byte → Instr}
    (h : ∀ v, v.length < 65536 → Encodes code (f v) (putSequence v) := by
      exact fun _ hv => ⟨rfl, fun _ => decide_eq_true hv, rfl⟩) :
    RowReadsEncodings (code, readSequence f) := by
  intro bs i rest hr
  obtain ⟨v, rfl, hv, rfl⟩ := readSequence_eq_some hr
  exact ⟨putSequence v, rfl, h v hv⟩

theorem rowReadsEncodings_sequenceByte {f : List Byte → Byte → Instr}
    (h : ∀ v b, v.length < 65536 → Encodes code (f v b) (putSequence v ++ [b]) := by
      exact fun _ _ hv => ⟨rfl, fun _ => decide_eq_true hv, rfl⟩) :
    RowReadsEncodings (code, readSequenceByte f) := by
  intro bs i rest hr
  obtain ⟨v, b, rfl, hv, rfl⟩ := readSequenceByte_eq_some hr
  exact ⟨putSequence v ++ [b], by simp, h v b hv⟩

theorem rowReadsEncodings_frame {f : RawFrame → Instr}
    (h : ∀ fr, Encodes code (f fr) fr.bytes := by exact fun _ => ⟨rfl, fun _ => rfl, rfl⟩) :
    RowReadsEncodings (code, readFrame f) := by
  intro bs i rest hr
  obtain ⟨fr, rfl, rfl⟩ := readFrame_eq_some hr
  exact ⟨fr.bytes, rfl, h fr⟩

theorem rowReadsEncodings_frameByte {f : RawFrame → Byte → Instr}
    (h : ∀ fr b, Encodes code (f fr b) (fr.bytes ++ [b]) := by exact fun _ _ => ⟨rfl, fun _ => rfl, rfl⟩) :
    RowReadsEncodings (code, readFrameByte f) := by
  intro bs i rest hr
  obtain ⟨fr, b, rfl, rfl⟩ := readFrameByte_eq_some hr
  exact ⟨fr.bytes ++ [b], by simp, h fr b⟩

theorem rowReadsEncodings_frameSequence {f : RawFrame → List Byte → Instr}
    (h : ∀ fr v, v.length < 65536 → Encodes code (f fr v) (fr.bytes ++ putSequence v) := by
      exact fun _ _ hv => ⟨rfl, fun _ => decide_eq_true hv, rfl⟩) :
    RowReadsEncodings (code, readFrameSequence f) := by
  intro bs i rest hr
  obtain ⟨fr, v, rfl, hv, rfl⟩ := readFrameSequence_eq_some hr
  exact ⟨fr.bytes ++ putSequence v, by simp, h fr v hv⟩

theorem rowReadsEncodings_frameValue {k : Nat} {f : RawFrame → Nat → Instr}
    (h : ∀ fr v, v < 256 ^ k → Encodes code (f fr v) (fr.bytes ++ leBytes k v)) :
    RowReadsEncodings (code, readFrameValue k f) := by
  intro bs i rest hr
  obtain ⟨fr, v, rfl, hv, rfl⟩ := readFrameValue_eq_some hr
  exact ⟨fr.bytes ++ leBytes k v, by simp, h fr v hv⟩

theorem encodes_setMessageId (fr : RawFrame) (v : Nat) (hv : v < 256 ^ 3) :
    Encodes 0x37#8 (.setMessageId fr (BitVec.ofNat 24 v)) (fr.bytes ++ leBytes 3 v) := by
  refine ⟨rfl, fun _ => rfl, ?_⟩
  rw [encode, BitVec.toNat_ofNat, Nat.mod_eq_of_lt (show v < 2 ^ 24 from hv)]

theorem encodes_setChecksum (fr : RawFrame) (v : Nat) (hv : v < 256 ^ 2) :
    Encodes 0x39#8 (.setChecksum fr (BitVec.ofNat 16 v)) (fr.bytes ++ leBytes 2 v) := by
  refine ⟨rfl, fun _ => rfl, ?_⟩
  rw [encode, BitVec.toNat_ofNat, Nat.mod_eq_of_lt (show v < 2 ^ 16 from hv)]

/-- Every row of R65's table, in the table's order. -/
theorem rowReadsEncodings_of_mem : ∀ row ∈ cmd8Table, RowReadsEncodings row := by
  simp only [cmd8Table, List.forall_mem_cons]
  exact
    ⟨rowReadsEncodings_sequence, rowReadsEncodings_none, rowReadsEncodings_none, rowReadsEncodings_none,
      rowReadsEncodings_byte, rowReadsEncodings_none, rowReadsEncodings_sequenceByte,
      rowReadsEncodings_frame, rowReadsEncodings_frame, rowReadsEncodings_frame, rowReadsEncodings_frame,
      rowReadsEncodings_frame, rowReadsEncodings_frame, rowReadsEncodings_frame, rowReadsEncodings_frame,
      rowReadsEncodings_frame, rowReadsEncodings_frame, rowReadsEncodings_frame, rowReadsEncodings_frame,
      rowReadsEncodings_frame, rowReadsEncodings_frame,
      rowReadsEncodings_frameByte, rowReadsEncodings_frameByte, rowReadsEncodings_frameByte,
      rowReadsEncodings_frameByte, rowReadsEncodings_frameByte, rowReadsEncodings_frameByte,
      rowReadsEncodings_frameByte, rowReadsEncodings_frameValue encodes_setMessageId,
      rowReadsEncodings_frameSequence, rowReadsEncodings_frameValue encodes_setChecksum,
      rowReadsEncodings_frameSequence, List.forall_mem_nil _⟩

/-- A command that is decoded has a row of the table, which has read its operands (R65). -/
theorem decodePort_cmd8_eq_ok (h : decodePort p .cmd8 (code :: operands) = .ok i rest) :
    ∃ read, (code, read) ∈ cmd8Table ∧ read operands = some (i, rest) := by
  simp only [decodePort, decodeCommand] at h
  split at h
  · cases h
  · rename_i read hrow
    obtain ⟨front, back, htable, -⟩ := List.lookup_eq_some_iff.mp hrow
    split at h
    · cases h
    · rename_i hread
      cases h
      exact ⟨read, by simp [htable], hread⟩

end Sys2Proof

/-- Settles O1: each command has its row in the table, whose reader reads what is written for it; a frame is read from
the bytes after its marker. -/
theorem decodeReadsEncodedInstruction : Obligations.DecodeReadsEncodedInstruction := by
  intro p i rest hwf
  cases i with
  | decode | reset | crcInit | crcGet | crcAcc => exact decodePort_of_lookup rfl rfl
  | push bs => exact decodePort_of_lookup rfl (readSequence_append _ (of_decide_eq_true hwf) rest)
  | crcCompute bs seed =>
    rw [encode, List.cons_append, List.append_assoc]
    exact decodePort_of_lookup rfl (readSequenceByte_append _ (of_decide_eq_true hwf) seed rest)
  | getMagic fr | getPayloadLength fr | getIncompatFlags fr | getCompatFlags fr | getSequence fr | getSystemId fr
  | getComponentId fr | getMessageId fr | getPayload fr | getChecksum fr | getSignature fr | signatureLength fr
  | rawBytes fr | hasValidCrc fr => exact decodePort_of_lookup rfl (readFrame_append _ fr rest)
  | setMagic fr v | setPayloadLength fr v | setIncompatFlags fr v | setCompatFlags fr v | setSequence fr v
  | setSystemId fr v | setComponentId fr v =>
    rw [encode, List.cons_append, List.append_assoc]
    exact decodePort_of_lookup rfl (readFrameByte_append _ fr v rest)
  | setMessageId fr v =>
    have read := readFrameValue_append 3 (fun fr v => .setMessageId fr (BitVec.ofNat 24 v)) fr v.isLt rest
    rw [encode, List.cons_append, List.append_assoc]
    rw [BitVec.ofNat_toNat, BitVec.setWidth_eq] at read
    exact decodePort_of_lookup rfl read
  | setChecksum fr v =>
    have read := readFrameValue_append 2 (fun fr v => .setChecksum fr (BitVec.ofNat 16 v)) fr v.isLt rest
    rw [encode, List.cons_append, List.append_assoc]
    rw [BitVec.ofNat_toNat, BitVec.setWidth_eq] at read
    exact decodePort_of_lookup rfl read
  | setPayload fr bs | setSignature fr bs =>
    rw [encode, List.cons_append, List.append_assoc]
    exact decodePort_of_lookup rfl (readFrameSequence_append _ fr (of_decide_eq_true hwf) rest)
  | frameV2Unsigned h =>
    obtain ⟨len, unsigned⟩ := wellFormed_frameV2Unsigned.mp hwf
    exact decodePort_frameV2Unsigned len unsigned rest
  | frameV2Signed h sig =>
    obtain ⟨len, signed, mac⟩ := wellFormed_frameV2Signed.mp hwf
    rw [encode, List.append_assoc]
    exact decodePort_frameV2Signed len signed mac rest

/-- Settles O2: a command was read by a row of the table, and a frame by the reader of the bytes after a marker. -/
theorem decodedBytesAreTheEncoding : Obligations.DecodedBytesAreTheEncoding := by
  intro p format bs i rest h
  cases bs with
  | nil => cases h
  | cons b bs =>
    cases format with
    | cmd8 =>
      obtain ⟨read, hmem, hread⟩ := decodePort_cmd8_eq_ok h
      obtain ⟨operands, rfl, encodes⟩ := rowReadsEncodings_of_mem _ hmem bs i rest hread
      exact ⟨encodes.format, encodes.wellFormed p, by rw [encodes.encode, List.cons_append]⟩
    | frame =>
      obtain none | ⟨j, tail, read, encodes⟩ := decodePort_frame_cons p b bs
      · rw [h] at none
        cases none
      · rw [h] at read
        cases read
        exact encodes

/-- Settles O3: each of the words is the encoding of its instruction, with nothing after it. -/
theorem writtenOutCommandsDecode : Obligations.WrittenOutCommandsDecode := fun p =>
  ⟨decodeReadsEncodedInstruction p (.push [0x03#8, 0x51#8, 0x04#8, 0x03#8, 0xA4#8, 0xAC#8]) [] rfl,
    decodeReadsEncodedInstruction p .decode [] rfl, decodeReadsEncodedInstruction p .reset [] rfl,
    decodeReadsEncodedInstruction p .crcInit [] rfl, decodeReadsEncodedInstruction p (.crcAcc 0x55#8) [] rfl,
    decodeReadsEncodedInstruction p .crcGet [] rfl, decodeReadsEncodedInstruction p (.crcCompute [] 0x00#8) [] rfl⟩
end

section
/-! PROOFS. The expansion of `CRC_COMPUTE` (R68) folds `crc_step` over the bytes in `ACC`, as `crc16` does (R81). -/

open Sys2Proof Sys2Proof.Machine

namespace Sys2Proof.Machine

/-- `CRC_ACC` of each byte leaves the fold of `crc_step` in `ACC`; it has no result (R84). -/
theorem execAll_crcAcc_append (bs : List Byte) (is : List Instr) (s : State) :
    execAll (bs.map Instr.crcAcc ++ is) (s.answer .none) =
      execAll is ((s.setAcc (bs.foldl crcStep s.acc)).answer .none) := by
  induction bs generalizing s with
  | nil => rfl
  | cons b bs ih => exact ih (s.setAcc (crcStep s.acc b))

end Sys2Proof.Machine

/-- Settles O17: `CRC_INIT` starts the fold that `crc16` is, and `CRC_GET` answers what the seed has made of it. -/
theorem crcByHandIsCrcCompute : Obligations.CrcByHandIsCrcCompute := fun bs seed s =>
  execAll_crcAcc_append bs [.crcAcc seed, .crcGet] (s.setAcc Config.crcInitValue)
end

section
/-! PROOFS. The decoder's loop, one turn at a time (R142), and what it makes of a candidate whose bytes are all present
(R143 to R146): a frame buffer that begins with the bytes of a frame has that frame's fields, whatever stands behind
them (R100). -/

open Sys2Proof Sys2Proof.Machine

namespace Sys2Proof

variable {p : Config.Params} {fr : RawFrame} {bs e : List Byte}

/-! What the view of a RawFrame value reads of bytes that stand at its front. -/

theorem RawFrame.slice_of_front {i j : Nat} (front : e <+: fr.bytes) (hj : j ≤ e.length) :
    fr.slice i j = (e.drop i).take (j - i) := by
  obtain ⟨back, hback⟩ := front
  rw [RawFrame.slice, ← hback]
  by_cases hi : i ≤ e.length
  · rw [List.drop_append_of_le_length hi, List.take_append_of_le_length (by rw [List.length_drop]; omega)]
  · rw [show j - i = 0 by omega, List.take_zero, List.take_zero]

theorem RawFrame.byte_of_front {i : Nat} (front : e <+: fr.bytes) (hi : i < e.length) :
    fr.byte i = e.getD i 0#8 := by
  obtain ⟨back, hback⟩ := front
  rw [RawFrame.byte, ← hback, List.getD_append _ _ _ _ hi]

/-- Bytes stored behind those at the front stand at the front with them (R119). -/
theorem RawFrame.front_write (front : e <+: fr.bytes) (room : e.length + bs.length ≤ 280) :
    e ++ bs <+: (fr.write e.length bs).bytes := by
  simp only [RawFrame.write]
  rw [← List.prefix_iff_eq_take.mp front, List.prefix_take_iff, List.length_append]
  exact ⟨List.prefix_append _ _, room⟩

/-- `L` is read from the first three bytes (R61). -/
theorem RawFrame.frameLength_of_front (front : e <+: fr.bytes) (header : 3 ≤ e.length) :
    fr.frameLength p = 12 + (e.getD 1 0#8).toNat + if isSigned p (e.getD 2 0#8) then 13 else 0 := by
  rw [RawFrame.frameLength, RawFrame.trailingLength, RawFrame.payloadLength, RawFrame.signatureLength,
    RawFrame.byte_of_front front (show 1 < e.length by omega),
    RawFrame.byte_of_front front (show 2 < e.length by omega)]
  omega

theorem isSigned_iff {flags : Byte} : isSigned p flags = true ↔ flags &&& p.iflagSigned ≠ 0#8 := bne_iff_ne

theorem flagsAcceptable_iff {flags : Byte} :
    flagsAcceptable p flags = true ↔ flags &&& ~~~p.supportedIflags = 0#8 := beq_iff_eq

end Sys2Proof

namespace Sys2Proof.Machine

variable {p : Config.Params} {s t : State} {b : Byte} {after bs e : List Byte} {i : Instr}

/-! `DECODE`, one turn at a time (R142). -/

theorem Turn.decodeStep (h : Turn p s t) : decodeStep p s = .goOn t := by
  cases h with
  | hold hst hsb => simp [Machine.decodeStep, hst, stepSearch, hsb]
  | skip hst hsb other => simp [Machine.decodeStep, hst, stepSearch, hsb, other]
  | copyHeader hst present flags | rejectFlags hst present flags =>
    simp [Machine.decodeStep, hst, stepHeader, present, flags]
  | copyTrailing hst present => simp [Machine.decodeStep, hst, stepPayload, present]
  | rejectChecksum hst crc => simp [Machine.decodeStep, hst, stepVerify, crc]

/-- The steps after the search take nothing from the stream buffer (R144 to R146). -/
theorem runCandidate_goOn (h : runCandidate p s = .goOn t) : t.st = .search ∧ t.sb = s.sb := by
  obtain ⟨u, hu, -⟩ | ⟨u, hu, -, hst, hsb⟩ :=
    runCandidate_induct (p := p) (I := fun _ => True) (Q := fun _ => True) (fun _ _ _ _ => trivial)
      (fun _ _ _ _ => trivial) s trivial
  · rw [h] at hu
    cases hu
  · rw [h] at hu
    cases hu
    exact ⟨hst, hsb⟩

/-- Where a turn goes on, `DECODE` is `DECODE` from there (R142). -/
theorem Turn.runDecode (h : Turn p s t) : runDecode p s = runDecode p t := by
  have hstep := h.decodeStep
  by_cases hst : s.st = .search
  · rw [Machine.decodeStep, hst] at hstep
    obtain ⟨b, hsb⟩ : ∃ b, s.sb = b :: t.sb := by
      obtain ⟨rest, hsb, rfl⟩ | ⟨b, rest, hsb, -, rfl⟩ := stepSearch_goOn hstep
      · exact ⟨Config.marker, by simp [hsb]⟩
      · exact ⟨b, by simp [hsb]⟩
    rw [Machine.runDecode, runCandidate_search hst, Machine.runDecode]
    simp only [hsb, scan, hstep, StepResult.andThen]
    cases hcand : runCandidate p t with
    | done u => rfl
    | goOn u => rw [← (runCandidate_goOn hcand).2]
  · rw [Machine.runDecode, runCandidate_step hst, hstep]
    rfl

/-- Where a turn returns, `DECODE` has returned (R142). -/
theorem runDecode_of_done (h : decodeStep p s = .done t) : runDecode p s = t := by
  by_cases hst : s.st = .search
  · rw [decodeStep, hst] at h
    obtain ⟨hsb, rfl⟩ := stepSearch_done h
    rw [runDecode, runCandidate_search hst]
    simp only [hsb, scan]
  · rw [runDecode, runCandidate_step hst, h]
    rfl

/-- A byte that is not the marker and after which nothing stands is skipped, and `DECODE` waits (R143). -/
theorem runDecode_noise (hst : s.st = .search) (hsb : s.sb = [b]) (other : b ≠ Config.marker) :
    runDecode p s = s.consume.answer .needMore := by
  rw [(Turn.skip (p := p) hst hsb other).runDecode]
  exact runDecode_of_done (by simp [decodeStep, hst, stepSearch, hsb])

/-! A candidate whose marker stands at the front of a stream buffer that is searched. -/

/-- The frame buffer when the marker and the header behind it have been copied (R143, R144). -/
def copiedHeader (f : RawFrame) (after : List Byte) : RawFrame := (f.write 0 [Config.marker]).write 1 (after.take 9)

/-- The frame buffer when the trailing bytes too have been copied (R145). -/
def copiedFrame (p : Config.Params) (f : RawFrame) (after : List Byte) : RawFrame :=
  (copiedHeader f after).write 10 ((after.drop 9).take ((copiedHeader f after).trailingLength p))

theorem copiedHeader_front (f : RawFrame) (header : 9 ≤ after.length) :
    Config.marker :: after.take 9 <+: (copiedHeader f after).bytes := by
  have marker : [Config.marker] <+: (f.write 0 [Config.marker]).bytes :=
    RawFrame.front_write (e := []) List.nil_prefix (by simp)
  exact RawFrame.front_write marker (by simp; omega)

theorem copiedHeader_flags (f : RawFrame) (header : 9 ≤ after.length) :
    (copiedHeader f after).byte 2 = after.getD 1 0#8 := by
  rw [RawFrame.byte_of_front (copiedHeader_front f header) (by simp; omega)]
  simp

/-- The marker of a candidate has been removed, the decoder is at this step of it, and the frame buffer holds this. -/
def State.candidate (s : State) (st : DecoderState) (f : RawFrame) : State := { s.consume with st := st, f := f }

/-- A candidate with an unsupported flag bit costs its marker: `DECODE` goes on behind it (R144, R170, R195). -/
theorem runDecode_rejectFlags (hst : s.st = .search) (hsb : s.sb = Config.marker :: after) (header : 9 ≤ after.length)
    (flags : flagsAcceptable p (after.getD 1 0#8) = false) :
    runDecode p s = runDecode p (s.consume.reject .iflags) := by
  obtain rfl : after = s.sb.tail := by simp [hsb]
  rw [← copiedHeader_flags s.f header] at flags
  have hold : Turn p s (s.candidate .header (s.f.write 0 [Config.marker])) := .hold hst hsb
  have reject : Turn p (s.candidate .header (s.f.write 0 [Config.marker])) (s.consume.reject .iflags) :=
    .rejectFlags rfl header flags
  rw [hold.runDecode, reject.runDecode]

/-- A candidate with acceptable flags and a valid checksum, whose bytes are all present, is returned (R144 to R146). -/
theorem runDecode_accept (hst : s.st = .search) (hsb : s.sb = Config.marker :: after) (header : 9 ≤ after.length)
    (flags : flagsAcceptable p (after.getD 1 0#8) = true)
    (trailing : 9 + (copiedHeader s.f after).trailingLength p ≤ after.length)
    (crc : (copiedFrame p s.f after).hasValidCrc p = true) :
    runDecode p s =
      (s.candidate .verify (copiedFrame p s.f after)).answer (.frame (copiedFrame p s.f after)) := by
  obtain rfl : after = s.sb.tail := by simp [hsb]
  rw [← copiedHeader_flags s.f header] at flags
  have hold : Turn p s (s.candidate .header (s.f.write 0 [Config.marker])) := .hold hst hsb
  have copyHeader : Turn p (s.candidate .header (s.f.write 0 [Config.marker]))
      (s.candidate .payload (copiedHeader s.f s.sb.tail)) := .copyHeader rfl header flags
  have copyTrailing : Turn p (s.candidate .payload (copiedHeader s.f s.sb.tail))
      (s.candidate .verify (copiedFrame p s.f s.sb.tail)) := .copyTrailing rfl trailing
  rw [hold.runDecode, copyHeader.runDecode, copyTrailing.runDecode]
  exact runDecode_of_done (if_pos crc)

/-! A frame that is whole and valid. -/

/-- These bytes are the whole of a frame that `DECODE` accepts (R144 to R146): of the length that it asks for itself
(R61), with acceptable flags and a valid checksum, whatever stands behind it in the frame buffer. -/
structure WholeFrame (p : Config.Params) (e : List Byte) : Prop where
  marker : e.head? = some Config.marker
  length : e.length = 12 + (e.getD 1 0#8).toNat + if isSigned p (e.getD 2 0#8) then 13 else 0
  flags : flagsAcceptable p (e.getD 2 0#8) = true
  crc : ∀ fr : RawFrame, e <+: fr.bytes → fr.hasValidCrc p = true

theorem WholeFrame.frameLength {fr : RawFrame} (h : WholeFrame p e) (front : e.take 10 <+: fr.bytes) :
    fr.frameLength p = e.length := by
  have hlen := h.length
  rw [RawFrame.frameLength_of_front front (by rw [List.length_take]; omega), hlen]
  simp

theorem WholeFrame.rawBytes {fr : RawFrame} (h : WholeFrame p e) (front : e <+: fr.bytes) : fr.rawBytes p = e := by
  rw [RawFrame.rawBytes, h.frameLength ((List.take_prefix 10 e).trans front), RawFrame.slice_of_front front le_rfl]
  simp

/-- It is returned, and what stood in the frame buffer before does not show in the bytes of the frame. -/
theorem WholeFrame.runDecode (h : WholeFrame p (Config.marker :: after)) (hst : s.st = .search)
    (hsb : s.sb = Config.marker :: after) :
    ∃ fr : RawFrame, fr.rawBytes p = Config.marker :: after ∧
      runDecode p s = (s.candidate .verify fr).answer (.frame fr) := by
  have header : 9 ≤ after.length := by
    have hlen := h.length
    rw [List.length_cons] at hlen
    omega
  have hL := h.frameLength (copiedHeader_front s.f header)
  have hL' := ((copiedHeader s.f after).frameLength_bounds p).2
  rw [RawFrame.frameLength] at hL hL'
  rw [List.length_cons] at hL
  have trailing : (copiedHeader s.f after).trailingLength p = (after.drop 9).length := by
    rw [List.length_drop]
    omega
  have front : Config.marker :: after <+: (copiedFrame p s.f after).bytes := by
    have copied := RawFrame.front_write (bs := after.drop 9) (copiedHeader_front s.f header) (by simp; omega)
    rw [List.cons_append, List.take_append_drop] at copied
    rw [copiedFrame, trailing, List.take_length]
    simpa [Nat.min_eq_left header] using copied
  exact ⟨copiedFrame p s.f after, h.rawBytes front,
    runDecode_accept hst hsb header (by simpa using h.flags) (by omega) (h.crc _ front)⟩

end Sys2Proof.Machine

/-- Settles O20: `T` is read from bytes 1 and 2, and every value of them gives a frame inside the array. -/
theorem frameLengthFollowsBytesOneAndTwo : Obligations.FrameLengthFollowsBytesOneAndTwo := by
  intro p fr
  obtain ⟨hT, hT'⟩ := fr.trailingLength_bounds p
  obtain ⟨hL, hL'⟩ := fr.frameLength_bounds p
  refine ⟨?_, hT, hT', rfl, hL, hL'⟩
  simp only [RawFrame.trailingLength, RawFrame.payloadLength, RawFrame.signatureLength, isSigned_iff]
end

section
/-! PROOFS. Frames on the link (R50, R63, R141; log 4): a frame as it is written is whole, with the fields it was
written from; and what arrives, a frame or a byte, is appended to the stream and read by `DECODE` there. -/

open Sys2Proof Sys2Proof.Machine

namespace Sys2Proof.Machine

variable {p : Config.Params} {s : State} {b : Byte} {after bs e sig : List Byte} {i : Instr} {h : FrameFields}

/-! The frames that `encode` writes (R50). -/

theorem putFields_length (h : FrameFields) : (putFields h).length = 12 + h.payload.length := by
  simp [putFields]
  omega

theorem le_length_putFields_append {k : Nat} (hk : k ≤ 12 + h.payload.length) : k ≤ (putFields h ++ sig).length := by
  rw [List.length_append, putFields_length]
  omega

theorem putSignature_length {g : Signature} (mac : g.mac.length = 6) : (putSignature g).length = 13 := by
  simp [putSignature, mac]

theorem payloadLength_of_putFields_front {fr : RawFrame} (front : putFields h ++ sig <+: fr.bytes)
    (len : h.payload.length ≤ 255) :
    fr.payloadLength = h.payload.length := by
  have byte : (putFields h ++ sig).getD 1 0#8 = BitVec.ofNat 8 h.payload.length := rfl
  rw [RawFrame.payloadLength, RawFrame.byte_of_front front (le_length_putFields_append (by omega)), byte,
    BitVec.toNat_ofNat]
  omega

theorem messageId_of_putFields_front {fr : RawFrame} (front : putFields h ++ sig <+: fr.bytes) :
    fr.messageId = h.messageId := by
  have bytes : ((putFields h ++ sig).drop 7).take 3 = leBytes 3 h.messageId.toNat := rfl
  rw [RawFrame.messageId, RawFrame.slice_of_front front (le_length_putFields_append (by omega)), bytes,
    leNat_leBytes_of_lt h.messageId.isLt, BitVec.ofNat_toNat, BitVec.setWidth_eq]

theorem checksum_of_putFields_front {fr : RawFrame} (front : putFields h ++ sig <+: fr.bytes)
    (len : h.payload.length ≤ 255) :
    fr.checksum = h.checksum := by
  have bytes : ((putFields h ++ sig).drop (10 + h.payload.length)).take 2 = leBytes 2 h.checksum.toNat := by
    rw [putFields, List.append_assoc, List.drop_left' (by simp; omega), List.take_left' (leBytes_length _ _)]
  rw [RawFrame.checksum, payloadLength_of_putFields_front front len,
    RawFrame.slice_of_front front (le_length_putFields_append (by omega)), Nat.add_sub_add_right, bytes,
    leNat_leBytes_of_lt h.checksum.isLt, BitVec.ofNat_toNat, BitVec.setWidth_eq]

/-- A frame is whole as it is written, if its signature is there where its flags say so, its flags are acceptable and it
carries the right checksum. -/
theorem wholeFrame_putFields (len : h.payload.length ≤ 255)
    (sigLen : sig.length = if isSigned p h.incompatFlags then 13 else 0)
    (flags : flagsAcceptable p h.incompatFlags = true)
    (crc : h.checksum = crc16 (((putFields h ++ sig).drop 1).take (9 + h.payload.length)) (p.seed h.messageId)) :
    WholeFrame p (putFields h ++ sig) where
  marker := rfl
  length := by
    have byte1 : ((putFields h ++ sig).getD 1 0#8).toNat = h.payload.length := Nat.mod_eq_of_lt (by omega)
    have byte2 : (putFields h ++ sig).getD 2 0#8 = h.incompatFlags := rfl
    rw [byte1, byte2, List.length_append, putFields_length, sigLen]
  flags := flags
  crc fr front := by
    rw [RawFrame.hasValidCrc, beq_iff_eq, checksum_of_putFields_front front len, RawFrame.frameCrc, RawFrame.covered,
      payloadLength_of_putFields_front front len, messageId_of_putFields_front front, crc,
      RawFrame.slice_of_front front (le_length_putFields_append (by omega)),
      show 10 + h.payload.length - 1 = 9 + h.payload.length by omega]

/-! Bytes that arrive (log 4). -/

theorem receiveBytes_of_fits (room : fits p (s.sb.length + bs.length) = true) :
    receiveBytes p bs s = .next (runDecode p (s.append bs)) :=
  receiveBytes_next.mpr ⟨room, rfl⟩

theorem receiveBytes_refused {r : Refusal} :
    receiveBytes p bs s = .refused r ↔ fits p (s.sb.length + bs.length) = false ∧ r = .pushNotEnabled := by
  by_cases room : fits p (s.sb.length + bs.length) = true <;> simp [receiveBytes, State.appendIfFits, room, eq_comm]

/-- A byte that is not the marker, arriving at a decoder that searches and holds no bytes, is skipped (R63, R143). -/
theorem receiveBytes_noise (hst : s.st = .search) (hsb : s.sb = []) (other : b ≠ Config.marker) :
    receiveBytes p [b] s =
      .next
        { s with
          result := .needMore
          ghost := { s.ghost with cons := s.ghost.cons + 1, stream := s.ghost.stream ++ [b] } } := by
  rw [receiveBytes_of_fits (fits_of_le _ (by simp [hsb])),
    runDecode_noise (s := s.append [b]) hst (by simp [hsb]) other]
  simp [State.append, State.consume, State.answer, hsb]

/-- A frame with an unsupported flag bit, arriving there, is rejected, and `DECODE` goes on behind its marker (R63). -/
theorem receiveBytes_rejectFlags (hst : s.st = .search) (hsb : s.sb = []) (header : 9 ≤ after.length)
    (flags : flagsAcceptable p (after.getD 1 0#8) = false) (room : fits p (Config.marker :: after).length = true) :
    receiveBytes p (Config.marker :: after) s =
      .next
        (runDecode p
          { s with
            st := .search, f := RawFrame.zero, sb := after
            ghost :=
              { cons := s.ghost.cons + 1, stream := s.ghost.stream ++ Config.marker :: after
                rejections := s.ghost.rejections ++ [(.iflags, s.ghost.cons + 1)] } }) := by
  rw [receiveBytes_of_fits (by simpa [hsb] using room),
    runDecode_rejectFlags (s := s.append (Config.marker :: after)) hst (by simp [hsb]) header flags]
  simp [State.append, State.consume, State.reject, State.reinit, hsb]

/-- A whole frame that arrives at a decoder that searches and holds no bytes is returned. -/
theorem WholeFrame.receiveBytes (h : WholeFrame p e) (hst : s.st = .search) (hsb : s.sb = [])
    (room : fits p e.length = true) :
    ∃ t fr, receiveBytes p e s = .next t ∧ t.result = .frame fr ∧ t.st = .verify ∧ fr.rawBytes p = e ∧
      t.sb = e.drop 1 := by
  obtain ⟨after, rfl⟩ := List.head?_eq_some_iff.mp h.marker
  obtain ⟨fr, raw, run⟩ := h.runDecode (s := s.append (Config.marker :: after)) hst (by simp [hsb])
  refine ⟨_, fr, receiveBytes_of_fits (by simpa [hsb] using room), ?_⟩
  rw [run]
  exact ⟨rfl, rfl, raw, by simp [State.candidate, hsb]⟩

/-- A frame's arrival is the arrival of its bytes (R50, log 4). -/
theorem exec_of_format_frame (wire : i.format = .frame) (s : State) :
    exec i s = Machine.receiveBytes Config.params (encode i) s := by
  cases i with
  | frameV2Unsigned | frameV2Signed => rfl
  | _ => cases wire

/-- The first byte of a frame is the marker, and its header stands behind (R50, R51). -/
theorem encode_eq_cons_of_format_frame (wire : i.format = .frame) :
    ∃ after, encode i = Config.marker :: after ∧ 9 ≤ after.length := by
  cases i with
  | frameV2Unsigned h => exact ⟨(putFields h).drop 1, rfl, by rw [List.length_drop, putFields_length]; omega⟩
  | frameV2Signed h g =>
    refine ⟨(putFields h ++ putSignature g).drop 1, rfl, ?_⟩
    rw [List.length_drop, List.length_append, putFields_length]
    omega
  | _ => cases wire

theorem step_of_noWholeFrame {rest : List Byte}
    (h : decodePort Config.params s.port.format s.port.bytes = .error (.noWholeFrame b rest)) :
    step s = Machine.receiveBytes Config.params [b] { s with port := { s.port with bytes := rest } } := by
  simp only [step, fetch, h, execLinkByte]

/-- A step on the link takes a frame or one byte: what it has taken arrives. -/
theorem step_link (s : State) {bs : List Byte} (hport : s.port = { format := .frame, bytes := bs })
    (nonempty : bs ≠ []) :
    ∃ taken rest, bs = taken ++ rest ∧ ((∃ b, taken = [b]) ∨ ∃ i : Instr, i.format = .frame ∧ taken = encode i) ∧
      step s = Machine.receiveBytes Config.params taken { s with port := { format := .frame, bytes := rest } } := by
  obtain ⟨b, others, rfl⟩ := List.exists_cons_of_ne_nil nonempty
  obtain noFrame | ⟨i, rest, read, wire, -, hbytes⟩ := decodePort_frame_cons Config.params b others
  · refine ⟨[b], others, rfl, .inl ⟨b, rfl⟩, ?_⟩
    rw [step_of_noWholeFrame (by rw [hport]; exact noFrame), hport]
  · refine ⟨encode i, rest, hbytes, .inr ⟨i, wire, rfl⟩, ?_⟩
    rw [step_of_decodePort (by rw [hport]; exact read), exec_of_format_frame wire, hport]

end Sys2Proof.Machine

/-- Settles O58: a frame's arrival is the arrival of its bytes, which is refused only where they do not fit. -/
theorem frameArrivalRunsTheDecoder : Obligations.FrameArrivalRunsTheDecoder := by
  intro s
  refine ⟨fun h room => ?_, fun h g room => ?_, fun h => ?_, fun h g => ?_⟩
  · exact ⟨receiveBytes_of_fits room, _, receiveBytes_of_fits room⟩
  · exact ⟨receiveBytes_of_fits room, _, receiveBytes_of_fits room⟩
  · exact receiveBytes_refused.trans (and_iff_left rfl)
  · exact receiveBytes_refused.trans (and_iff_left rfl)

/-- Settles O59: as it is written, such a frame is a whole frame that `DECODE` accepts; an unsigned one has no more than
267 bytes, and so always fits. -/
theorem validFrameIsReturnedWhole : Obligations.ValidFrameIsReturnedWhole := by
  intro s hst hsb
  constructor
  · intro h hwf flags crc
    obtain ⟨len, unsigned⟩ := wellFormed_frameV2Unsigned.mp hwf
    have whole := wholeFrame_putFields (p := Config.params) (h := h) (sig := []) len (by simp [unsigned])
      (flagsAcceptable_iff.mpr flags) (by rw [List.append_nil]; exact crc)
    rw [List.append_nil] at whole
    exact whole.receiveBytes hst hsb (fits_of_le _ (by rw [putFields_length]; omega))
  · intro h g hwf flags room crc
    obtain ⟨len, signed, mac⟩ := wellFormed_frameV2Signed.mp hwf
    have whole := wholeFrame_putFields (p := Config.params) (h := h) (sig := putSignature g) len
      (by rw [putSignature_length mac, if_pos signed]) (flagsAcceptable_iff.mpr flags) crc
    exact whole.receiveBytes hst hsb ((fits_iff _ _).mpr room)

/-- Settles O60: a step on the link is the arrival of what it takes; noise and a frame with an unsupported flag bit end
as `DECODE`'s own turns say. -/
theorem linkIsTotalOnEveryByteSequence : Obligations.LinkIsTotalOnEveryByteSequence := by
  refine ⟨?_, ?_, ?_, fun i s wire => exec_of_format_frame wire s, ?_⟩
  · intro s bs hport nonempty room
    obtain ⟨taken, rest, rfl, whatIsTaken, hstep⟩ := step_link s hport nonempty
    rw [List.length_append] at room
    have fitting : fits Config.params (s.sb.length + taken.length) = true := fits_mono (by omega) room
    exact ⟨_, taken, rest, rfl, whatIsTaken, hstep.trans (receiveBytes_of_fits fitting), rfl⟩
  · intro s r hformat hstep
    by_cases empty : s.port.bytes = []
    · simp [step, fetch, decodePort, empty] at hstep
    · obtain ⟨taken, rest, -, -, hlink⟩ := step_link s (by rw [← hformat]) empty
      exact (receiveBytes_refused.mp (hlink.symm.trans hstep)).2
  · intro s b rest hport hst hsb other
    have noFrame : decodePort Config.params s.port.format s.port.bytes = .error (.noWholeFrame b rest) := by
      rw [hport]
      simp [decodePort, decodeLink, Config.marker, other]
    rw [step_of_noWholeFrame noFrame, hport]
    exact receiveBytes_noise hst hsb other
  · intro p s i flags hst hsb wire hflags unsupported room
    obtain ⟨after, hencode, header⟩ := encode_eq_cons_of_format_frame wire
    rw [hencode] at hflags room ⊢
    rw [List.getElem?_cons_succ] at hflags
    have rejected : flagsAcceptable p (after.getD 1 0#8) = false := by
      rw [List.getD_eq_getElem?_getD, hflags, Bool.eq_false_iff, Ne, flagsAcceptable_iff]
      exact unsupported
    rw [receiveBytes_rejectFlags hst hsb header rejected room, hst]
    rfl
end

section
/-! PROOFS. `crc_step` in 16 bits is the formula of R80 on numbers (R87). It is linear over exclusive or (R88 (d)), and
it is 0 only where the accumulator is the byte itself; so it is injective in each of its operands (R88 (b)). -/

open Sys2Proof Sys2Proof.Machine

namespace Sys2Proof.Machine

/-- `t2` of R80, made of `t1`. -/
def crcSpread (t1 : Word16) : Word16 := (t1 ^^^ (t1 <<< 4)) &&& 0xFF#16

/-- `crc_step` of R80, where `t2` is known. -/
def crcMix (acc t2 : Word16) : Word16 := (acc >>> 8) ^^^ (t2 <<< 8) ^^^ (t2 <<< 3) ^^^ (t2 >>> 4)

theorem crcStep_eq_crcMix (acc : Word16) (b : Byte) :
    crcStep acc b = crcMix acc (crcSpread ((acc ^^^ b.setWidth 16) &&& 0xFF#16)) := rfl

/-! On numbers: what `crc_step` shifts to the left is a byte, so in 16 bits no shift of it by up to 8 places loses a
bit. -/

theorem toNat_and_0xFF (x : Word16) : (x &&& 0xFF#16).toNat = x.toNat % 256 :=
  Nat.and_two_pow_sub_one_eq_mod x.toNat 8

theorem toNat_and_0xFF_lt (x : Word16) : (x &&& 0xFF#16).toNat < 256 := by
  rw [toNat_and_0xFF]
  exact Nat.mod_lt _ (by decide)

theorem toNat_crcSpread_lt (t1 : Word16) : (crcSpread t1).toNat < 256 := toNat_and_0xFF_lt _

theorem toNat_byte_setWidth_16 (b : Byte) : (b.setWidth 16).toNat = b.toNat := BitVec.toNat_setWidth_of_le (by decide)

theorem toNat_shiftLeft_of_lt_256 {x : Word16} {k : Nat} (hx : x.toNat < 256) (hk : k ≤ 8) :
    (x <<< k).toNat = x.toNat <<< k := by
  rw [BitVec.toNat_shiftLeft]
  refine Nat.mod_eq_of_lt ?_
  calc x.toNat <<< k = x.toNat * 2 ^ k := Nat.shiftLeft_eq ..
    _ < 2 ^ 8 * 2 ^ 8 := Nat.mul_lt_mul_of_lt_of_le hx (Nat.pow_le_pow_right two_pos hk) (by decide)

theorem toNat_crcSpread {t1 : Word16} (h : t1.toNat < 256) :
    (crcSpread t1).toNat = (t1.toNat ^^^ (t1.toNat <<< 4)) &&& 0xFF := by
  rw [crcSpread, BitVec.toNat_and, BitVec.toNat_xor, toNat_shiftLeft_of_lt_256 h (by decide)]
  rfl

theorem toNat_crcMix (acc : Word16) {t2 : Word16} (h : t2.toNat < 256) :
    (crcMix acc t2).toNat =
      (acc.toNat >>> 8) ^^^ (t2.toNat <<< 8) ^^^ (t2.toNat <<< 3) ^^^ (t2.toNat >>> 4) := by
  rw [crcMix, BitVec.toNat_xor, BitVec.toNat_xor, BitVec.toNat_xor, BitVec.toNat_ushiftRight, BitVec.toNat_ushiftRight,
    toNat_shiftLeft_of_lt_256 h (by decide), toNat_shiftLeft_of_lt_256 h (by decide)]

/-! Exclusive or goes through each of the operations that `crc_step` is made of. -/

theorem and_xor_distrib_right {w : Nat} (x y m : BitVec w) : (x ^^^ y) &&& m = (x &&& m) ^^^ (y &&& m) :=
  BitVec.eq_of_toNat_eq (by simp only [BitVec.toNat_and, BitVec.toNat_xor, Nat.and_xor_distrib_right])

theorem crcSpread_xor (t t' : Word16) : crcSpread (t ^^^ t') = crcSpread t ^^^ crcSpread t' := by
  simp only [crcSpread, BitVec.shiftLeft_xor_distrib, and_xor_distrib_right]
  ac_rfl

theorem crcMix_xor (a a' t t' : Word16) : crcMix (a ^^^ a') (t ^^^ t') = crcMix a t ^^^ crcMix a' t' := by
  simp only [crcMix, BitVec.shiftLeft_xor_distrib, BitVec.ushiftRight_xor_distrib]
  ac_rfl

theorem crcStep_xor (a a' : Word16) (b b' : Byte) :
    crcStep (a ^^^ a') (b ^^^ b') = crcStep a b ^^^ crcStep a' b' := by
  have operands : (a ^^^ a') ^^^ (b ^^^ b').setWidth 16 = (a ^^^ b.setWidth 16) ^^^ (a' ^^^ b'.setWidth 16) := by
    rw [BitVec.setWidth_xor]
    ac_rfl
  simp only [crcStep_eq_crcMix, operands, and_xor_distrib_right, crcSpread_xor, crcMix_xor]

/-! Where it is 0. -/

/-- Of the bytes only 0 is its own low half shifted into the high half. -/
theorem eq_zero_of_crcSpread_eq_zero {t1 : Word16} (h : t1.toNat < 256) (zero : crcSpread t1 = 0#16) : t1 = 0#16 := by
  have low : (t1.toNat ^^^ (t1.toNat <<< 4)) % 2 ^ 8 = 0 := by
    rw [← Nat.and_two_pow_sub_one_eq_mod, ← toNat_crcSpread h, zero]
    rfl
  rw [Nat.xor_mod_two_pow, Nat.xor_eq_zero_iff, Nat.shiftLeft_eq] at low
  exact BitVec.eq_of_toNat_eq (show t1.toNat = 0 by omega)

/-- The high byte of what `crcMix` gives is the exclusive or of `t2` and its three high bits (R80). -/
theorem toNat_crcMix_shiftRight_8 (acc : Word16) {t2 : Word16} (h : t2.toNat < 256) :
    (crcMix acc t2).toNat >>> 8 = t2.toNat ^^^ (t2.toNat >>> 5) := by
  have acc_high : acc.toNat >>> 8 >>> 8 = 0 := by have := acc.isLt; omega
  have t2_8 : t2.toNat <<< 8 >>> 8 = t2.toNat := by omega
  have t2_3 : t2.toNat <<< 3 >>> 8 = t2.toNat >>> 5 := by omega
  have t2_4 : t2.toNat >>> 4 >>> 8 = 0 := by omega
  rw [toNat_crcMix acc h]
  simp only [Nat.shiftRight_xor_distrib, acc_high, t2_8, t2_3, t2_4, Nat.zero_xor, Nat.xor_zero]

theorem eq_zero_of_crcMix_eq_zero {acc t2 : Word16} (h : t2.toNat < 256) (zero : crcMix acc t2 = 0#16) :
    t2 = 0#16 := by
  have high := toNat_crcMix_shiftRight_8 acc h
  rw [zero, eq_comm] at high
  have same : t2.toNat = t2.toNat >>> 5 := Nat.xor_eq_zero_iff.mp high
  exact BitVec.eq_of_toNat_eq (show t2.toNat = 0 by omega)

theorem crcMix_zero (acc : Word16) : crcMix acc 0#16 = acc >>> 8 := by
  simp [crcMix]

theorem eq_of_crcStep_eq_zero {a : Word16} {b : Byte} (zero : crcStep a b = 0#16) : a = b.setWidth 16 := by
  rw [crcStep_eq_crcMix] at zero
  have t2 := eq_zero_of_crcMix_eq_zero (toNat_crcSpread_lt _) zero
  have t1 := eq_zero_of_crcSpread_eq_zero (toNat_and_0xFF_lt _) t2
  rw [t2, crcMix_zero] at zero
  have high : a.toNat >>> 8 = 0 := congrArg BitVec.toNat zero
  rw [and_xor_distrib_right, BitVec.xor_eq_zero_iff] at t1
  have low : a.toNat % 256 = (b.setWidth 16).toNat % 256 := by rw [← toNat_and_0xFF, t1, toNat_and_0xFF]
  have byte : (b.setWidth 16).toNat < 256 := by rw [toNat_byte_setWidth_16]; exact b.isLt
  exact BitVec.eq_of_toNat_eq (by omega)

/-- Two steps agree only where the accumulators differ as the bytes do: by linearity their difference is a step that is
0. -/
theorem xor_eq_of_crcStep_eq {a a' : Word16} {b b' : Byte} (h : crcStep a b = crcStep a' b') :
    a ^^^ a' = (b ^^^ b').setWidth 16 := by
  refine eq_of_crcStep_eq_zero ?_
  rw [crcStep_xor, h, BitVec.xor_self]

theorem crcStep_injective_acc (b : Byte) : Function.Injective fun acc : Word16 => crcStep acc b := by
  intro a a' h
  have diff := xor_eq_of_crcStep_eq h
  rw [BitVec.xor_self, BitVec.setWidth_zero, BitVec.xor_eq_zero_iff] at diff
  exact diff

theorem crcStep_injective_byte (acc : Word16) : Function.Injective fun b : Byte => crcStep acc b := by
  intro b b' h
  have diff := xor_eq_of_crcStep_eq h
  rw [BitVec.xor_self, BitVec.setWidth_xor, eq_comm, BitVec.xor_eq_zero_iff] at diff
  exact BitVec.eq_of_toNat_eq (by rw [← toNat_byte_setWidth_16, diff, toNat_byte_setWidth_16])

/-- The bytes that follow keep two accumulators apart (R88 (b)). -/
theorem foldl_crcStep_injective (bs : List Byte) : Function.Injective fun acc : Word16 => bs.foldl crcStep acc := by
  induction bs with
  | nil => exact Function.injective_id
  | cons b bs ih => exact ih.comp (crcStep_injective_acc b)

theorem crc16_eq_crc16Raw (bs : List Byte) (seed : Byte) : crc16 bs seed = crc16Raw (bs ++ [seed]) :=
  (crc16Raw_concat bs seed).symm

end Sys2Proof.Machine

/-- Settles O9: `t1` and `t2` are bytes, so no shift in 16 bits loses a bit. -/
theorem crcStepIsTheFormulaOnNaturals : Obligations.CrcStepIsTheFormulaOnNaturals := by
  intro acc b
  have t1 : ((acc ^^^ b.setWidth 16) &&& 0xFF#16).toNat = (acc.toNat ^^^ b.toNat) &&& 0xFF := by
    rw [BitVec.toNat_and, BitVec.toNat_xor, toNat_byte_setWidth_16]
    rfl
  have t2 := toNat_crcSpread (toNat_and_0xFF_lt (acc ^^^ b.setWidth 16))
  rw [t1] at t2
  rw [crcStep_eq_crcMix, toNat_crcMix acc (toNat_crcSpread_lt _), t2]

/-- Settles O11: `crc_step` is made of shifts, masks and exclusive or, and exclusive or goes through each. -/
theorem crcStepIsLinear : Obligations.CrcStepIsLinear := ⟨by decide, crcStep_xor⟩

/-- Settles O12: by linearity `crc_step` is injective; in the accumulator it maps a finite set to itself. -/
theorem crcStepIsInjective : Obligations.CrcStepIsInjective :=
  ⟨fun b => Finite.injective_iff_bijective.mp (crcStep_injective_acc b), crcStep_injective_byte⟩

/-- Settles O13: the altered byte makes the accumulators differ, and the bytes after it keep them apart. -/
theorem oneAlteredByteChangesTheChecksum : Obligations.OneAlteredByteChangesTheChecksum := by
  intro before after b b' differ same
  rw [crc16Raw_append, crc16Raw_append] at same
  exact differ (crcStep_injective_byte _ (foldl_crcStep_injective after same))

/-- Settles O10: `crc16` is the fold over the bytes and the seed behind them. -/
theorem crcFoldsTheBytesThenTheSeed : Obligations.CrcFoldsTheBytesThenTheSeed := by
  refine ⟨fun _ => rfl, fun bs b seed => ?_, crc16_eq_crc16Raw, by decide⟩
  rw [crc16, crc16Raw_concat, ← crc16]
end

section
/-! PROOFS. A payload byte is one of the bytes that the checksum covers (R59, R82), and altering it leaves the
message id and the stored checksum as they are. -/

open Sys2Proof Sys2Proof.Machine

namespace Sys2Proof

theorem RawFrame.slice_one (fr : RawFrame) {i : Nat} (h : i < 280) : fr.slice i (i + 1) = [fr.byte i] := by
  rw [RawFrame.slice, show i + 1 - i = 1 by omega, List.take_one, List.head?_drop, fr.getElem?_bytes h]
  rfl

/-- The covered bytes, around a payload byte. -/
theorem RawFrame.covered_eq_append_payload_byte (fr : RawFrame) {i : Nat} (hi : i < fr.payloadLength) :
    fr.covered = fr.slice 1 (10 + i) ++ fr.byte (10 + i) :: fr.slice (10 + i + 1) (10 + fr.payloadLength) := by
  have hle := fr.payloadLength_le
  rw [RawFrame.covered, ← fr.slice_append (show 1 ≤ 10 + i by omega) (by omega),
    ← fr.slice_append (show 10 + i ≤ 10 + i + 1 by omega) (show _ ≤ 10 + fr.payloadLength by omega),
    fr.slice_one (by omega), List.singleton_append]

section
variable (fr : RawFrame) {i j off : Nat} (bs : List Byte)

theorem RawFrame.slice_write_of_le (hj : j ≤ off) (hoff : off ≤ 280) : (fr.write off bs).slice i j = fr.slice i j :=
  RawFrame.slice_congr (by omega) fun _ _ hk => fr.write_byte_of_lt bs (by omega) hoff

theorem RawFrame.slice_write_of_ge (hi : off + bs.length ≤ i) (hj : j ≤ 280) :
    (fr.write off bs).slice i j = fr.slice i j :=
  RawFrame.slice_congr hj fun _ _ _ => fr.write_byte_of_ge bs (by omega) (by omega)

end

section
variable {fr : RawFrame} {i : Nat} (hi : i < fr.payloadLength) (b : Byte)
include hi

theorem RawFrame.payloadLength_write_payload_byte : (fr.write (10 + i) [b]).payloadLength = fr.payloadLength := by
  have hle := fr.payloadLength_le
  rw [RawFrame.payloadLength, fr.write_byte_of_lt [b] (by omega) (by omega), ← RawFrame.payloadLength]

theorem RawFrame.messageId_write_payload_byte : (fr.write (10 + i) [b]).messageId = fr.messageId := by
  have hle := fr.payloadLength_le
  rw [RawFrame.messageId, fr.slice_write_of_le [b] (by omega) (by omega), ← RawFrame.messageId]

theorem RawFrame.checksum_write_payload_byte : (fr.write (10 + i) [b]).checksum = fr.checksum := by
  have hle := fr.payloadLength_le
  rw [RawFrame.checksum, RawFrame.payloadLength_write_payload_byte hi,
    fr.slice_write_of_ge [b] (by rw [List.length_singleton]; omega) (by omega), ← RawFrame.checksum]

theorem RawFrame.covered_write_payload_byte :
    (fr.write (10 + i) [b]).covered =
      fr.slice 1 (10 + i) ++ b :: fr.slice (10 + i + 1) (10 + fr.payloadLength) := by
  have hle := fr.payloadLength_le
  have same := RawFrame.payloadLength_write_payload_byte hi b
  rw [RawFrame.covered_eq_append_payload_byte _ (by rw [same]; exact hi), same,
    fr.slice_write_of_le [b] le_rfl (by omega), fr.slice_write_of_ge [b] (List.length_singleton ▸ le_rfl) (by omega),
    fr.write_one_byte _ _ (by omega), if_pos rfl]

end

end Sys2Proof

/-- Settles O14: the recomputed checksum differs, by O13 with the seed behind the covered bytes, and the stored one is
the same. -/
theorem alteredPayloadByteFailsTheCheck : Obligations.AlteredPayloadByteFailsTheCheck := by
  intro p fr i b valid hi differ
  have recomputed : (fr.write (10 + i) [b]).frameCrc p ≠ fr.frameCrc p := by
    simp only [RawFrame.frameCrc, RawFrame.messageId_write_payload_byte hi, RawFrame.covered_write_payload_byte hi,
      fr.covered_eq_append_payload_byte hi, crc16_eq_crc16Raw, List.append_assoc, List.cons_append]
    exact oneAlteredByteChangesTheChecksum _ _ _ _ differ
  rw [RawFrame.hasValidCrc, beq_iff_eq] at valid
  rw [RawFrame.hasValidCrc, beq_eq_false_iff_ne, RawFrame.checksum_write_payload_byte hi, ← valid]
  exact recomputed
end

section
/-! PROOFS. The operations of the generator (R83 to R86): each is decoded by its row of R65's table. -/

open Sys2Proof Sys2Proof.Machine

/-- Settles O15: the operands are read as they are encoded; each operation only writes `ACC` or the result port. -/
theorem generatorOperationsComplete : Obligations.GeneratorOperationsComplete :=
  ⟨⟨fun _ _ => decodePort_of_lookup rfl rfl, fun _ => rfl⟩,
    ⟨fun _ _ _ => decodePort_of_lookup rfl rfl, fun _ _ => rfl⟩,
    fun _ _ => decodePort_of_lookup rfl rfl, fun _ => rfl, rfl⟩

/-- Settles O16: the sequence and the seed are read as they are encoded, and only the result port is written. -/
theorem crcComputeIsThePureFunction : Obligations.CrcComputeIsThePureFunction :=
  ⟨fun _ _ seed rest hbs => decodePort_of_lookup rfl (readSequenceByte_append _ hbs seed rest), fun _ _ _ => rfl⟩
end

section
/-! PROOFS. What a RawFrame value reads after a write (R119): a field that was written is read back, and one that lies
elsewhere reads as before. -/

open Sys2Proof Sys2Proof.Machine

namespace Sys2Proof.Machine

/-- A value of `8 * k` bits is read back from its `k` bytes (R7, R31). -/
theorem ofNat_leNat_leBytes {w k : Nat} (v : BitVec w) (h : v.toNat < 256 ^ k) :
    BitVec.ofNat w (leNat (leBytes k v.toNat)) = v := by
  rw [leNat_leBytes_of_lt h, BitVec.ofNat_toNat, BitVec.setWidth_eq]

end Sys2Proof.Machine

namespace Sys2Proof

theorem RawFrame.setPayload_eq_some {fr fr' : RawFrame} {bs : List Byte} :
    fr.setPayload bs = some fr' ↔ bs.length = fr.payloadLength ∧ fr' = fr.write 10 bs := by
  by_cases h : bs.length = fr.payloadLength <;> simp [RawFrame.setPayload, h, eq_comm]

theorem RawFrame.signatureLength_of_signed {fr : RawFrame} {p : Config.Params} (signed : isSigned p (fr.byte 2) = true) :
    fr.signatureLength p = 13 :=
  if_pos signed

section
variable (fr : RawFrame) {off j : Nat} (bs : List Byte)

theorem RawFrame.slice_write_self (hj : j = off + bs.length) (room : j ≤ 280) : (fr.write off bs).slice off j = bs := by
  subst hj
  exact fr.write_slice off bs room

/-! A write behind the header leaves the fields of the header as they are. -/

theorem RawFrame.payloadLength_write (hoff : 2 ≤ off) (room : off ≤ 280) :
    (fr.write off bs).payloadLength = fr.payloadLength := by
  rw [RawFrame.payloadLength, fr.write_byte_of_lt bs (by omega) room, ← RawFrame.payloadLength]

theorem RawFrame.signatureLength_write (p : Config.Params) (hoff : 3 ≤ off) (room : off ≤ 280) :
    (fr.write off bs).signatureLength p = fr.signatureLength p := by
  rw [RawFrame.signatureLength, fr.write_byte_of_lt bs (by omega) room, ← RawFrame.signatureLength]

theorem RawFrame.messageId_write (hoff : 10 ≤ off) (room : off ≤ 280) :
    (fr.write off bs).messageId = fr.messageId := by
  rw [RawFrame.messageId, fr.slice_write_of_le bs hoff room, ← RawFrame.messageId]

end

section
variable (fr : RawFrame)

/-! Each wide mutator writes what its accessor reads. -/

theorem RawFrame.messageId_setMessageId (v : Word24) : (fr.setMessageId v).messageId = v := by
  rw [RawFrame.setMessageId, RawFrame.messageId, fr.slice_write_self _ (by simp) (by omega),
    ofNat_leNat_leBytes v v.isLt]

theorem RawFrame.payloadLength_setChecksum (v : Word16) : (fr.setChecksum v).payloadLength = fr.payloadLength := by
  have := fr.payloadLength_le
  exact fr.payloadLength_write _ (by omega) (by omega)

theorem RawFrame.checksum_setChecksum (v : Word16) : (fr.setChecksum v).checksum = v := by
  have := fr.payloadLength_le
  rw [RawFrame.checksum, fr.payloadLength_setChecksum, RawFrame.setChecksum,
    fr.slice_write_self _ (by rw [leBytes_length]; omega) (by omega), ofNat_leNat_leBytes v v.isLt]

theorem RawFrame.payload_write {bs : List Byte} (len : bs.length = fr.payloadLength) :
    (fr.write 10 bs).payload = bs := by
  have := fr.payloadLength_le
  rw [RawFrame.payload, fr.payloadLength_write bs (by omega) (by omega),
    fr.slice_write_self bs (by omega) (by omega)]

theorem RawFrame.signature_setSignature {p : Config.Params} {bs : List Byte}
    (signed : isSigned p (fr.byte 2) = true) (len : bs.length = 13) : (fr.setSignature bs).signature p = bs := by
  have := fr.payloadLength_le
  rw [RawFrame.setSignature, RawFrame.signature, fr.payloadLength_write bs (by omega) (by omega),
    fr.signatureLength_write bs p (by omega) (by omega), RawFrame.signatureLength_of_signed signed,
    fr.slice_write_self bs (by omega) (by omega)]

/-! What the checksum covers stands before it (R59, R82). -/

theorem RawFrame.covered_setChecksum (v : Word16) : (fr.setChecksum v).covered = fr.covered := by
  have := fr.payloadLength_le
  rw [RawFrame.covered, fr.payloadLength_setChecksum, RawFrame.setChecksum,
    fr.slice_write_of_le _ le_rfl (by omega), ← RawFrame.covered]

theorem RawFrame.frameCrc_setChecksum (p : Config.Params) (v : Word16) :
    (fr.setChecksum v).frameCrc p = fr.frameCrc p := by
  have := fr.payloadLength_le
  rw [RawFrame.frameCrc, fr.covered_setChecksum, RawFrame.setChecksum, fr.messageId_write _ (by omega) (by omega),
    ← RawFrame.frameCrc]

end

end Sys2Proof

/-- Settles O33: the accessor reads the slice that the mutator wrote, for the bytes that say where it lies stand before
it. -/
theorem accessorsReadWhatMutatorsWrote : Obligations.AccessorsReadWhatMutatorsWrote := by
  intro p fr
  refine ⟨fr.messageId_setMessageId, fr.checksum_setChecksum, fun bs fr' stored => ?_,
    fun bs signed len => fr.signature_setSignature signed len⟩
  obtain ⟨len, rfl⟩ := RawFrame.setPayload_eq_some.mp stored
  exact fr.payload_write len

/-- Settles O34: the stored checksum is the one of the value before, and storing it does not change what it is made
of. -/
theorem sealedFrameIsValid : Obligations.SealedFrameIsValid := by
  intro p fr
  rw [RawFrame.hasValidCrc, beq_iff_eq, fr.frameCrc_setChecksum, fr.checksum_setChecksum]
end

section
/-! PROOFS. The read accessors and `HAS_VALID_CRC` (R101 to R115): each is decoded by its row of R65's table, and answers
what the view of its operand reads. -/

open Sys2Proof Sys2Proof.Machine

namespace Sys2Proof.Machine

variable {code : Byte}

/-- A row of the table that reads one RawFrame (R65, R66). -/
theorem frameCommand_of_lookup {mk : RawFrame → Instr} (row : cmd8Table.lookup code = some (readFrame mk)) :
    FrameCommand code mk :=
  fun _ fr rest => decodePort_of_lookup row (readFrame_append mk fr rest)

/-- A value assembled from bytes that fit its width is the number that they make (R7). -/
theorem toNat_ofNat_leNat {w : Nat} {bs : List Byte} (fit : 256 ^ bs.length ≤ 2 ^ w) :
    (BitVec.ofNat w (leNat bs)).toNat = leNat bs := by
  rw [BitVec.toNat_ofNat, Nat.mod_eq_of_lt ((leNat_lt bs).trans_le fit)]

/-- The bytes of such a value are those bytes. -/
theorem leBytes_toNat_ofNat_leNat {w : Nat} {bs : List Byte} (fit : 256 ^ bs.length ≤ 2 ^ w) :
    leBytes bs.length (BitVec.ofNat w (leNat bs)).toNat = bs := by
  rw [toNat_ofNat_leNat fit, leBytes_leNat]

theorem leNat_pair (a b : Byte) : leNat [a, b] = a.toNat + 256 * b.toNat := by
  simp only [leNat]
  omega

theorem leNat_triple (a b c : Byte) : leNat [a, b, c] = a.toNat + 256 * b.toNat + 65536 * c.toNat := by
  simp only [leNat]
  omega

end Sys2Proof.Machine

namespace Sys2Proof

variable {p : Config.Params} (fr : RawFrame)

/-- The message id as a number (R57, R108). -/
theorem RawFrame.toNat_messageId :
    fr.messageId.toNat = (fr.byte 7).toNat + 256 * (fr.byte 8).toNat + 65536 * (fr.byte 9).toNat := by
  rw [RawFrame.messageId, fr.slice_messageId, toNat_ofNat_leNat (by simp), leNat_triple]

/-- The stored checksum as a number (R59, R110). -/
theorem RawFrame.toNat_checksum :
    fr.checksum.toNat =
      (fr.byte (10 + fr.payloadLength)).toNat + 256 * (fr.byte (11 + fr.payloadLength)).toNat := by
  have hle := fr.payloadLength_le
  have bytes := fr.slice_two (i := 10 + fr.payloadLength) (by omega)
  rw [show 10 + fr.payloadLength + 2 = 12 + fr.payloadLength by omega,
    show 10 + fr.payloadLength + 1 = 11 + fr.payloadLength by omega] at bytes
  rw [RawFrame.checksum, bytes, toNat_ofNat_leNat (by simp), leNat_pair]

theorem RawFrame.payload_length : fr.payload.length = fr.payloadLength := by
  have hle := fr.payloadLength_le
  rw [RawFrame.payload, fr.slice_length (by omega), Nat.add_sub_cancel_left]

theorem RawFrame.payload_getElem? {i : Nat} (hi : i < fr.payloadLength) :
    fr.payload[i]? = some (fr.byte (10 + i)) := by
  have hle := fr.payloadLength_le
  exact fr.slice_getElem? (by omega) (by omega)

/-- The covered bytes are the only sequence of their length that reads so (R59, R82). -/
theorem RawFrame.eq_covered {bs : List Byte} (len : bs.length = 9 + fr.payloadLength)
    (bytes : ∀ i < bs.length, bs[i]? = some (fr.byte (1 + i))) : bs = fr.covered := by
  have hle := fr.payloadLength_le
  have covered : fr.covered.length = bs.length := by rw [RawFrame.covered, fr.slice_length (by omega)]; omega
  apply List.ext_getElem?
  intro i
  by_cases hi : i < bs.length
  · rw [bytes i hi, RawFrame.covered, fr.slice_getElem? (by omega) (by omega)]
  · rw [List.getElem?_eq_none (by omega), List.getElem?_eq_none (by omega)]

/-! The signature (R60, R111, R112). -/

theorem RawFrame.signature_of_unsigned (unsigned : ¬isSigned p (fr.byte 2) = true) : fr.signature p = [] := by
  rw [RawFrame.signature, RawFrame.signatureLength, if_neg unsigned, RawFrame.slice, Nat.add_zero, Nat.sub_self,
    List.take_zero]

theorem RawFrame.signatureParts_of_unsigned (unsigned : ¬isSigned p (fr.byte 2) = true) :
    fr.signatureParts p = none :=
  if_neg unsigned

theorem RawFrame.signature_of_signed (signed : isSigned p (fr.byte 2) = true) :
    fr.signature p = fr.slice (12 + fr.payloadLength) (25 + fr.payloadLength) := by
  rw [RawFrame.signature, RawFrame.signatureLength_of_signed signed]
  congr 1
  omega

theorem RawFrame.signatureParts_of_signed (signed : isSigned p (fr.byte 2) = true) :
    ∃ sig, fr.signatureParts p = some sig ∧ sig.mac.length = 6 ∧ fr.signature p = putSignature sig := by
  have hle := fr.payloadLength_le
  refine ⟨_, if_pos signed, by rw [fr.slice_length (by omega)]; omega, ?_⟩
  have linkId := fr.slice_one (i := 12 + fr.payloadLength) (by omega)
  rw [show 12 + fr.payloadLength + 1 = 13 + fr.payloadLength by omega] at linkId
  have len : (fr.slice (13 + fr.payloadLength) (19 + fr.payloadLength)).length = 6 := by
    rw [fr.slice_length (by omega)]
    omega
  have timestamp := leBytes_toNat_ofNat_leNat (w := 48) (by rw [len]; decide)
  rw [len] at timestamp
  rw [putSignature, timestamp, fr.slice_append (by omega) (by omega), ← List.singleton_append, ← linkId,
    fr.slice_append (by omega) (by omega), fr.signature_of_signed signed]

/-- `HAS_VALID_CRC` compares two numbers (R115). -/
theorem RawFrame.hasValidCrc_eq_decide (p : Config.Params) :
    fr.hasValidCrc p =
      decide ((crc16 fr.covered (p.seed fr.messageId)).toNat =
        (fr.byte (10 + fr.payloadLength)).toNat + 256 * (fr.byte (11 + fr.payloadLength)).toNat) := by
  rw [← fr.toNat_checksum, RawFrame.hasValidCrc, RawFrame.frameCrc, Bool.eq_iff_iff, beq_iff_eq, decide_eq_true_iff,
    BitVec.toNat_inj]

end Sys2Proof

/-- Settles O21: each of the seven reads one RawFrame and answers one byte of it. -/
theorem headerAccessorsReadTheirByte : Obligations.HeaderAccessorsReadTheirByte :=
  ⟨⟨frameCommand_of_lookup rfl, frameCommand_of_lookup rfl, frameCommand_of_lookup rfl, frameCommand_of_lookup rfl,
      frameCommand_of_lookup rfl, frameCommand_of_lookup rfl, frameCommand_of_lookup rfl⟩,
    fun _ _ => ⟨rfl, rfl, rfl, rfl, rfl, rfl, rfl⟩⟩

/-- Settles O22: the answer is the message id of the view. -/
theorem getMessageIdIsLittleEndian : Obligations.GetMessageIdIsLittleEndian :=
  ⟨frameCommand_of_lookup rfl, fun fr _ => ⟨fr.messageId, rfl, fr.toNat_messageId⟩⟩

/-- Settles O23: the answer is the payload of the view, and a payload byte is a byte of that list. -/
theorem getPayloadAnswersExactlyItsLength : Obligations.GetPayloadAnswersExactlyItsLength :=
  ⟨frameCommand_of_lookup rfl, fun fr _ =>
    ⟨fr.payload, rfl, fr.payload_length, fun _ hi => ⟨fr.payload_getElem? hi, fr.payload_getElem? hi⟩,
      fun _ hi => List.getElem?_eq_none (fr.payload_length.trans_le hi)⟩⟩

/-- Settles O24: the answer is the stored checksum of the view. -/
theorem getChecksumReadsTheStoredOne : Obligations.GetChecksumReadsTheStoredOne :=
  ⟨frameCommand_of_lookup rfl, fun fr _ => ⟨fr.checksum, rfl, fr.toNat_checksum⟩⟩

/-- Settles O25: a signed frame's 13 bytes are those of its three parts; an unsigned one has neither. -/
theorem signatureFollowsTheSignedBit : Obligations.SignatureFollowsTheSignedBit := by
  refine ⟨frameCommand_of_lookup rfl, frameCommand_of_lookup rfl, fun fr s => ⟨fr.signature Config.params, ?_⟩⟩
  have hle := fr.payloadLength_le
  simp only [← isSigned_iff]
  refine ⟨rfl, rfl, fun unsigned => ?_, fun signed => ?_⟩
  · exact ⟨fr.signature_of_unsigned unsigned, fr.signatureParts_of_unsigned unsigned⟩
  · obtain ⟨sig, parts, mac, bytes⟩ := fr.signatureParts_of_signed signed
    refine ⟨by rw [bytes, putSignature_length mac], fun i hi => ?_, sig, parts, mac, bytes⟩
    rw [fr.signature_of_signed signed]
    exact fr.slice_getElem? (by omega) (by omega)

/-- Settles O26: the answer is the front of the array, as long as `L` says. -/
theorem rawBytesIsTheWireFrame : Obligations.RawBytesIsTheWireFrame := by
  refine ⟨frameCommand_of_lookup rfl, fun fr s => ⟨fr.rawBytes Config.params, rfl, fr.rawBytes_length _, ?_⟩⟩
  obtain ⟨hL, hL'⟩ := fr.frameLength_bounds Config.params
  rw [fr.rawBytes_length]
  exact ⟨hL, hL', fun i hi => fr.rawBytes_getElem? _ hi⟩

/-- Settles O27: the covered bytes and the id are determined by what is said of them. -/
theorem hasValidCrcRecomputesTheChecksum : Obligations.HasValidCrcRecomputesTheChecksum := by
  refine ⟨frameCommand_of_lookup rfl, fun fr s covered id len bytes hid => ?_, fun p a b => RawFrame.hasValidCrc_congr p⟩
  obtain rfl := fr.eq_covered len bytes
  obtain rfl : id = fr.messageId := BitVec.eq_of_toNat_eq (hid.trans fr.toNat_messageId.symm)
  exact congrArg (fun valid => Host.Outcome.next (s.answer (.bool valid))) (fr.hasValidCrc_eq_decide Config.params)
end

section
/-! PROOFS. The mutators (R119 to R130): each is decoded by its row of R65's table; where it completes, the bytes that it
stores stand in the array and every other byte is as before. -/

open Sys2Proof Sys2Proof.Machine

namespace Sys2Proof.Machine

variable {code : Byte} {s : State} {fr : RawFrame} {bs : List Byte}

/-! What is read of the operands. -/

/-- A row of the table that reads a RawFrame and a byte (R65, R66). -/
theorem frameByteCommand_of_lookup {mk : RawFrame → Byte → Instr}
    (row : cmd8Table.lookup code = some (readFrameByte mk)) : FrameByteCommand code mk :=
  fun _ fr v rest => decodePort_of_lookup row (readFrameByte_append mk fr v rest)

/-- The `k` bytes of a number do not show what it has beyond them (R31). -/
theorem leBytes_mod (k v : Nat) : leBytes k (v % 256 ^ k) = leBytes k v := by
  have bytes := leBytes_leNat (leBytes k v)
  rwa [leBytes_length, leNat_leBytes] at bytes

/-- A row of the table that reads a RawFrame and a value of `k` bytes, whatever number they were written from. -/
theorem decodePort_frameValue {k w : Nat} {mk : RawFrame → BitVec w → Instr} {p : Config.Params}
    (row : cmd8Table.lookup code = some (readFrameValue k fun fr v => mk fr (BitVec.ofNat w v)))
    (width : 256 ^ k = 2 ^ w) (fr : RawFrame) (v : Nat) (rest : List Byte) :
    decodePort p .cmd8 (code :: (fr.bytes ++ (leBytes k v ++ rest))) = .ok (mk fr (BitVec.ofNat w v)) rest := by
  have same : BitVec.ofNat w (v % 256 ^ k) = BitVec.ofNat w v := by
    rw [width]
    exact BitVec.eq_of_toNat_eq (by simp)
  rw [← leBytes_mod, ← same]
  exact decodePort_of_lookup row (readFrameValue_append k _ fr (Nat.mod_lt _ (Nat.pow_pos (by decide))) rest)

/-! What is stored. -/

theorem leBytes_getElem? {k i : Nat} (v : Nat) (hi : i < k) :
    (leBytes k v)[i]? = some (BitVec.ofNat 8 (v >>> (8 * i))) := by
  induction k generalizing i v with
  | zero => exact absurd hi (Nat.not_lt_zero i)
  | succ k ih =>
    cases i with
    | zero => rfl
    | succ i =>
      rw [leBytes, List.getElem?_cons_succ, ih (v / 256) (by omega), Nat.mul_succ, Nat.add_comm, Nat.shiftRight_add,
        Nat.shiftRight_eq_div_pow v 8]

/-! When the two mutators that can be refused are refused (R128, R130). -/

theorem execSetPayload_refused (len : bs.length ≠ fr.payloadLength) :
    execSetPayload fr bs s = .refused .payloadLengthMismatch := by
  simp only [execSetPayload, RawFrame.setPayload, if_neg len]

theorem execSetSignature_refused_of_length (len : bs.length ≠ 13) :
    execSetSignature fr bs s = .refused .signatureLengthMismatch :=
  if_pos len

theorem execSetSignature_refused_of_unsigned (len : bs.length = 13)
    (unsigned : ¬isSigned Config.params (fr.byte 2) = true) :
    execSetSignature fr bs s = .refused .unsignedFrame := by
  rw [execSetSignature, if_neg (not_not_intro len), if_neg unsigned]

end Sys2Proof.Machine

namespace Sys2Proof

section
variable (fr : RawFrame) {off i : Nat} {bs : List Byte}

/-- A byte that was stored is read back. -/
theorem RawFrame.write_byte_add (hi : i < bs.length) (room : off + bs.length ≤ 280) :
    some ((fr.write off bs).byte (off + i)) = bs[i]? := by
  rw [fr.write_byte off bs (by omega), if_pos (by omega), Nat.add_sub_cancel_left, List.getD_eq_getElem?_getD,
    List.getElem?_eq_getElem hi, Option.getD_some]

/-- A byte that was not stored is as before. -/
theorem RawFrame.write_byte_of_outside (bs : List Byte) (hi : i < 280) (outside : i < off ∨ off + bs.length ≤ i) :
    (fr.write off bs).byte i = fr.byte i := by
  rw [fr.write_byte off bs hi, if_neg (by omega)]

/-- A value that was stored lies in its bytes, the least significant first (R31). -/
theorem RawFrame.write_leBytes_byte_add {k w : Nat} (v : BitVec w) (hi : i < k) (room : off + k ≤ 280) :
    (fr.write off (leBytes k v.toNat)).byte (off + i) = v.extractLsb' (8 * i) 8 := by
  have stored := fr.write_byte_add (bs := leBytes k v.toNat) (by rwa [leBytes_length]) (by rwa [leBytes_length])
  rw [leBytes_getElem? _ hi] at stored
  exact Option.some.inj stored

end

end Sys2Proof

/-- Settles O28: each of the seven reads a RawFrame and a byte and writes that byte. -/
theorem headerMutatorsReplaceOneByte : Obligations.HeaderMutatorsReplaceOneByte := by
  refine ⟨⟨frameByteCommand_of_lookup rfl, frameByteCommand_of_lookup rfl, frameByteCommand_of_lookup rfl,
    frameByteCommand_of_lookup rfl, frameByteCommand_of_lookup rfl, frameByteCommand_of_lookup rfl,
    frameByteCommand_of_lookup rfl⟩, fun fr v s => ?_⟩
  have written (k : Nat) : ∀ j < 280, (fr.write k [v]).byte j = if j = k then v else fr.byte j :=
    fun _ hj => fr.write_one_byte k v hj
  exact ⟨⟨_, rfl, written 0⟩, ⟨_, rfl, written 1⟩, ⟨_, rfl, written 2⟩, ⟨_, rfl, written 3⟩, ⟨_, rfl, written 4⟩,
    ⟨_, rfl, written 5⟩, ⟨_, rfl, written 6⟩⟩

/-- Settles O29: the three bytes of the id are written at offset 7. -/
theorem setMessageIdStoresThreeBytes : Obligations.SetMessageIdStoresThreeBytes := by
  refine ⟨fun _ => decodePort_frameValue rfl rfl, fun fr v s => ⟨fr.setMessageId v, rfl, ?_⟩⟩
  have stored (i : Nat) (hi : i < 3) : (fr.setMessageId v).byte (7 + i) = v.extractLsb' (8 * i) 8 :=
    fr.write_leBytes_byte_add v hi (by decide)
  refine ⟨stored 0 (by decide), stored 1 (by decide), stored 2 (by decide), fun j hj h7 h8 h9 => ?_⟩
  exact fr.write_byte_of_outside _ hj (by rw [leBytes_length]; omega)

/-- Settles O30: the payload is written at offset 10, where its length is `payload_length`. -/
theorem setPayloadNeedsItsLength : Obligations.SetPayloadNeedsItsLength := by
  refine ⟨fun _ fr _ rest fit => decodePort_of_lookup rfl (readFrameSequence_append _ fr fit rest),
    fun fr bs s len => ?_, fun _ _ _ len => execSetPayload_refused len⟩
  have hle := fr.payloadLength_le
  rw [← RawFrame.payloadLength] at len ⊢
  refine ⟨fr.write 10 bs, execSetPayload_next.mpr ⟨len, rfl⟩, fun i hi => ?_, fun j hj outside => ?_⟩
  · exact fr.write_byte_add (by omega) (by omega)
  · exact fr.write_byte_of_outside bs hj (by omega)

/-- Settles O31: the two bytes of the checksum are written behind the payload. -/
theorem setChecksumStoresTwoBytes : Obligations.SetChecksumStoresTwoBytes := by
  refine ⟨fun _ => decodePort_frameValue rfl rfl, fun fr v s => ⟨fr.setChecksum v, rfl, ?_⟩⟩
  have hle := fr.payloadLength_le
  rw [← RawFrame.payloadLength, show 11 + fr.payloadLength = 10 + fr.payloadLength + 1 by omega]
  have stored (i : Nat) (hi : i < 2) :
      (fr.setChecksum v).byte (10 + fr.payloadLength + i) = v.extractLsb' (8 * i) 8 :=
    fr.write_leBytes_byte_add v hi (by omega)
  refine ⟨stored 0 (by decide), stored 1 (by decide), fun j hj low high => ?_⟩
  exact fr.write_byte_of_outside _ hj (by rw [leBytes_length]; omega)

/-- Settles O32: the signature is written behind the checksum, where the frame is signed and the length is 13. -/
theorem setSignatureNeedsASignedFrame : Obligations.SetSignatureNeedsASignedFrame := by
  refine ⟨fun _ fr _ rest fit => decodePort_of_lookup rfl (readFrameSequence_append _ fr fit rest),
    fun fr bs s signed len => ?_, fun fr bs s unsigned len => ?_,
    fun _ _ _ len => execSetSignature_refused_of_length len⟩
  · have hle := fr.payloadLength_le
    rw [← RawFrame.payloadLength]
    refine ⟨fr.setSignature bs, execSetSignature_next.mpr ⟨len, isSigned_iff.mpr signed, rfl⟩, fun i hi => ?_,
      fun j hj outside => ?_⟩
    · exact fr.write_byte_add (by omega) (by omega)
    · exact fr.write_byte_of_outside bs hj (by omega)
  · exact execSetSignature_refused_of_unsigned len fun signed => isSigned_iff.mp signed unsigned
end

section
/-! PROOFS. What each step of `DECODE` does (R143 to R146): it waits, it returns a frame, or it is a turn that goes on. -/

open Sys2Proof Sys2Proof.Machine

namespace Sys2Proof.Machine

variable {p : Config.Params} {s : State}

/-- The step of a decoder that waits answers `NeedMore` and does nothing else (R143 to R145). -/
theorem decodeStep_of_waiting (h : Waiting p s) : decodeStep p s = .done (s.answer .needMore) := by
  unfold Waiting at h
  split at h <;> rename_i hst
  · simp only [decodeStep, hst, stepSearch, h]
  · simp only [decodeStep, hst, stepHeader, if_pos h]
  · simp only [decodeStep, hst, stepPayload, if_pos h]
  · exact h.elim

/-- The verify step returns a frame whose checksum matches, and does nothing else (R146). -/
theorem decodeStep_of_validCrc (hst : s.st = .verify) (crc : s.f.hasValidCrc p = true) :
    decodeStep p s = .done (s.answer (.frame s.f)) := by
  simp only [decodeStep, hst, stepVerify, if_pos crc]

/-- The flags byte of a copied header is the second byte that was present (R144). -/
theorem flags_of_copied {sb : List Byte} (f : RawFrame) (present : 9 ≤ sb.length) :
    (f.write 1 (sb.take 9)).byte 2 = sb.getD 1 0#8 := by
  have copied := f.write_byte_add (off := 1) (i := 1) (bs := sb.take 9) (by simp; omega) (by simp; omega)
  rw [List.getElem?_take_of_lt (by decide)] at copied
  rw [List.getD_eq_getElem?_getD, ← copied, Option.getD_some]

end Sys2Proof.Machine

/-- Settles O38: with nothing there the decoder waits; the marker is held, another byte is skipped. -/
theorem searchStepConsumesOneByte : Obligations.SearchStepConsumesOneByte := by
  intro p s hst
  refine ⟨fun empty => decodeStep_of_waiting (by simpa [Waiting, hst] using empty), fun rest hsb => ?_,
    fun b rest hsb other => ?_⟩
  · obtain rfl : s.sb.tail = rest := by rw [hsb, List.tail_cons]
    have stored (i : Nat) (hi : i < 280) := s.f.write_one_byte 0 Config.marker hi
    exact ⟨_, (Turn.hold hst hsb).decodeStep, rfl, rfl, (stored 0 (by decide)).trans (if_pos rfl),
      fun i hi outside => (stored i hi).trans (if_neg outside), rfl, rfl, rfl, rfl⟩
  · obtain rfl : s.sb.tail = rest := by rw [hsb, List.tail_cons]
    exact (Turn.skip hst hsb other).decodeStep

/-- Settles O39: the flags that are tested are the second of the nine bytes. -/
theorem headerStepTestsTheFlags : Obligations.HeaderStepTestsTheFlags := by
  intro p s hst
  refine ⟨fun few => decodeStep_of_waiting (by simpa [Waiting, hst] using few), fun present unsupported => ?_,
    fun present supported => ?_⟩
  · refine (Turn.rejectFlags hst present ?_).decodeStep
    rw [flags_of_copied s.f present]
    exact Bool.eq_false_iff.mpr fun acceptable => unsupported (flagsAcceptable_iff.mp acceptable)
  · have len : (s.sb.take 9).length = 9 := by rw [List.length_take]; omega
    refine ⟨_, (Turn.copyHeader hst present ?_).decodeStep, rfl, fun i hi => ?_, fun i hi outside => ?_, rfl, rfl, rfl,
      rfl, rfl⟩
    · rw [flags_of_copied s.f present]
      exact flagsAcceptable_iff.mpr supported
    · exact (s.f.write_byte_add (by omega) (by omega)).trans (List.getElem?_take_of_lt hi)
    · exact s.f.write_byte_of_outside _ hi (by omega)

/-- Settles O40: `T` is the trailing length of `F`, and the bytes are stored behind the header. -/
theorem payloadStepCopiesTheTrailingBytes : Obligations.PayloadStepCopiesTheTrailingBytes := by
  intro p s hst T
  obtain ⟨(hT : s.f.trailingLength p = T), -, bound, -⟩ := frameLengthFollowsBytesOneAndTwo p s.f
  refine ⟨fun few => decodeStep_of_waiting (by simpa [Waiting, hst, hT] using few), fun present => ?_⟩
  have len : ((s.sb.drop 9).take (s.f.trailingLength p)).length = T := by
    rw [List.length_take, List.length_drop]
    omega
  refine ⟨_, (Turn.copyTrailing hst (by omega)).decodeStep, rfl, fun i hi => ?_, fun i hi outside => ?_, rfl, rfl, rfl,
    rfl, rfl⟩
  · refine (s.f.write_byte_add (by omega) (by omega)).trans ?_
    rw [List.getElem?_take_of_lt (by omega), List.getElem?_drop]
  · exact s.f.write_byte_of_outside _ hi (by omega)

/-- Settles O41: the checksum alone decides. -/
theorem verifyStepReturnsOrRejects : Obligations.VerifyStepReturnsOrRejects :=
  fun _ _ hst => ⟨decodeStep_of_validCrc hst, fun crc => (Turn.rejectChecksum hst crc).decodeStep⟩
end

section
/-! PROOFS. `PUSH` appends where the bytes fit and is refused where they do not (R141); `RESET` (R147). -/

open Sys2Proof Sys2Proof.Machine

namespace Sys2Proof.Machine

variable {p : Config.Params} {s : State} {bs : List Byte}

/-- `PUSH` is refused for one reason, where its bytes do not fit (R141, R201 (f)). -/
theorem execPush_refused {r : Refusal} :
    execPush bs s = .refused r ↔
      fits Config.params (s.sb.length + bs.length) = false ∧ r = .pushNotEnabled := by
  by_cases room : fits Config.params (s.sb.length + bs.length) = true <;>
    simp [execPush, State.appendIfFits, room, eq_comm]

/-- Bytes do not fit exactly when `SB_CAP` is bounded and smaller (R33, D11). -/
theorem fits_eq_false_iff {n : Nat} : fits p n = false ↔ ∃ cap, p.capacity = some cap ∧ cap < n := by
  simp only [← Bool.not_eq_true, fits_iff, not_forall, not_le, exists_prop]

/-- `PUSH` appends bytes that fit, and answers no result (R141, log 2). -/
theorem exec_push_of_fits (room : fits Config.params (s.sb.length + bs.length) = true) :
    exec (.push bs) s = .next ((s.append bs).answer .none) :=
  execPush_next.mpr ⟨room, rfl⟩

/-- Bytes appended after others, whatever was answered between, stand behind them (R141). -/
theorem State.append_answer_append (a b : List Byte) (r : Result) :
    ((s.append a).answer r).append b = (s.append (a ++ b)).answer r := by
  simp [State.append, State.answer]

theorem State.answer_answer (r r' : Result) : (s.answer r).answer r' = s.answer r' := rfl

end Sys2Proof.Machine

/-- Settles O35: the sequence is read as it is encoded; it is appended exactly where it fits. -/
theorem pushAppendsWhatFits : Obligations.PushAppendsWhatFits := by
  refine ⟨fun _ _ rest hbs => decodePort_of_lookup rfl (readSequence_append _ hbs rest),
    fun bs s room => exec_push_of_fits ((fits_iff _ _).mpr room), fun bs s => ?_⟩
  rw [← fits_eq_false_iff]
  exact execPush_refused.trans (and_iff_left rfl)

/-- Settles O36: where both fit the first fits, and appending is associative. -/
theorem twoPushesAreOne : Obligations.TwoPushesAreOne := by
  intro a b s room
  have roomA : fits Config.params (s.sb.length + a.length) = true := fits_mono (by simp) room
  have roomB : fits Config.params (((s.append a).answer .none).sb.length + b.length) = true := by
    simpa [Nat.add_assoc] using room
  simp only [execAll, exec_push_of_fits roomA, exec_push_of_fits roomB, exec_push_of_fits room,
    State.append_answer_append, State.answer_answer]

/-- Settles O37: the frame buffer of the reinitialised decoder is the zero frame. -/
theorem resetReinitialisesTheDecoder : Obligations.ResetReinitialisesTheDecoder :=
  ⟨fun _ _ => decodePort_of_lookup rfl rfl,
    fun s => ⟨s.reinit.answer .none, rfl, rfl, fun i _ => RawFrame.byte_zero i, rfl, rfl, rfl, rfl, rfl⟩⟩
end

section
/-! PROOFS. `DECODE` as the loop of its steps (R142, R149, R150), and what it skips (R143, R173). -/

open Sys2Proof Sys2Proof.Machine

namespace Sys2Proof.Machine

variable {p : Config.Params} {s : State} {noise rest : List Byte}

/-- Bytes that are not the marker are skipped, one turn each (R143). -/
theorem runDecode_skipNoise (hst : s.st = .search) (hsb : s.sb = noise ++ rest) (clean : Config.marker ∉ noise) :
    runDecode p s =
      runDecode p { s with sb := rest, ghost := { s.ghost with cons := s.ghost.cons + noise.length } } := by
  induction noise generalizing s with
  | nil =>
    obtain rfl : s.sb = rest := hsb
    rfl
  | cons b noise ih =>
    obtain ⟨other, clean⟩ := List.ne_and_not_mem_of_not_mem_cons clean
    have skip : Turn p s s.consume := .skip hst hsb (Ne.symm other)
    rw [skip.runDecode, ih (s := s.consume) hst (by simp [hsb]) clean]
    simp [State.consume, Nat.add_assoc, Nat.add_comm 1]

end Sys2Proof.Machine

/-- Settles O43: a step that returns ends `DECODE`, and `DECODE` goes on from where a step goes on. -/
theorem decodeIsTheLoopOfItsSteps : Obligations.DecodeIsTheLoopOfItsSteps := by
  refine ⟨fun _ _ => decodePort_of_lookup rfl rfl, fun s => ?_, fun s => ⟨_, rfl, ?_⟩⟩
  · cases hstep : decodeStep Config.params s with
    | done t => exact congrArg Host.Outcome.next (runDecode_of_done hstep)
    | goOn t => exact congrArg Host.Outcome.next (turn_of_decodeStep hstep).runDecode
  · cases returned_runDecode Config.params s with
    | needMore result => exact .inl result
    | frame result => exact .inr ⟨_, result⟩

/-- Settles O44: every turn takes bytes from the front only, and the turn that returns says why. -/
theorem decodeAlwaysReturns : Obligations.DecodeAlwaysReturns := by
  intro s
  obtain ⟨n, taken⟩ := runDecode_takesFront Config.params s
  refine ⟨_, n, rfl, taken.present, taken.sb, taken.cons, taken.stream, taken.acc, taken.port, ?_⟩
  cases returned_runDecode Config.params s with
  | needMore result waiting => exact .inl ⟨result, waiting⟩
  | frame result st crc => exact .inr ⟨result, st, crc⟩

/-- Settles O45: the verify step, which `ST` still names, returns the unchanged `F`. -/
theorem decodeWithoutResetReturnsTheSameFrame : Obligations.DecodeWithoutResetReturnsTheSameFrame :=
  ⟨fun _ => rfl, fun _ _ hst crc => runDecode_of_done (decodeStep_of_validCrc hst crc)⟩

/-- Settles O53: each byte of the noise costs a turn of the search. -/
theorem noiseIsSkipped : Obligations.NoiseIsSkipped :=
  fun _ _ _ hst hsb clean => congrArg Host.Outcome.next (runDecode_skipNoise hst hsb clean)
end

section
/-! PROOFS. What `DECODE` returns from a state that meets the invariant (R148): the marker that it holds, the bytes
behind it, which are the front of `SB` (R12), and so a piece of the stream (R18). -/

open Sys2Proof Sys2Proof.Machine

namespace Sys2Proof

/-- The bytes of the frame are its first byte and the `L - 1` behind it (R113). -/
theorem RawFrame.rawBytes_eq_cons (p : Config.Params) (fr : RawFrame) :
    fr.rawBytes p = fr.byte 0 :: fr.slice 1 (fr.frameLength p) := by
  have hL := (fr.frameLength_bounds p).1
  rw [RawFrame.rawBytes, ← fr.slice_append (show 0 ≤ 1 by omega) (by omega), fr.slice_one (by omega)]
  rfl

end Sys2Proof

namespace Sys2Proof.Machine

variable {s : State}

/-- The marker of a candidate that is held stands in the stream before the bytes of `SB` (R18). -/
theorem GhostInv.drop_stream_of_held (h : GhostInv s) (held : s.st ≠ .search) :
    s.ghost.stream.drop (s.ghost.cons - 1) = Config.marker :: s.sb := by
  obtain ⟨-, hdrop, hheld⟩ := h
  obtain ⟨hpos, hmarker⟩ := hheld held
  obtain ⟨hlt, hget⟩ := List.getElem?_eq_some_iff.mp hmarker
  rw [List.drop_eq_getElem_cons hlt, hget, Nat.sub_add_cancel hpos, hdrop]

end Sys2Proof.Machine

/-- Settles O46: `DECODE` keeps the invariant, and what it returns is the `F` of a state in `VERIFY`. -/
theorem returnedFrameStandsInTheStream : Obligations.ReturnedFrameStandsInTheStream := by
  refine ⟨fun _ => rfl, ?_⟩
  rintro p s _ fr hs rfl hfr
  obtain ⟨hframe, -, hghost⟩ := hs.loopInv.runDecode
  cases returned_runDecode p s with
  | needMore result => simp [hfr] at result
  | frame result hst crc =>
    obtain rfl : fr = (runDecode p s).f := by simpa [hfr] using result
    simp only [FrameInv, hst] at hframe
    obtain ⟨marker, -, copy, flags, -, -⟩ := hframe
    have hL := ((runDecode p s).f.frameLength_bounds p).1
    refine ⟨marker, flagsAcceptable_iff.mp flags, crc, ?_, ?_⟩
    · rw [RawFrame.rawBytes_eq_cons, List.drop_one, List.tail_cons, copy, State.peekMany_eq, List.drop_zero]
    · rw [RawFrame.rawBytes_eq_cons, marker, copy, hghost.drop_stream_of_held (by simp [hst]),
        List.take_cons (by omega), State.peekMany_eq, List.drop_zero]
end

section
/-! PROOFS. What `DECODE` makes of a candidate is its verdict (R63, R171, R193): the frame buffer holds a front of the
stream, and no verdict looks beyond it. A rejection costs the marker and nothing else (R170, R172). -/

open Sys2Proof Sys2Proof.Machine

namespace Sys2Proof

variable {p : Config.Params} {a b : RawFrame} {e : List Byte}

/-! What two RawFrame values have in common whose fronts are the same bytes. -/

theorem RawFrame.byte_eq_of_front {i : Nat} (ha : e <+: a.bytes) (hb : e <+: b.bytes) (hi : i < e.length) :
    a.byte i = b.byte i := by
  rw [byte_of_front ha hi, byte_of_front hb hi]

theorem RawFrame.trailingLength_eq_of_front (ha : e <+: a.bytes) (hb : e <+: b.bytes) (header : 3 ≤ e.length) :
    a.trailingLength p = b.trailingLength p :=
  trailingLength_congr p (byte_eq_of_front ha hb (by omega)) (byte_eq_of_front ha hb (by omega))

/-- The checksum test does not look behind the frame (R115 (d)). -/
theorem RawFrame.hasValidCrc_eq_of_front (ha : e <+: a.bytes) (hb : e <+: b.bytes)
    (whole : a.frameLength p ≤ e.length) : a.hasValidCrc p = b.hasValidCrc p := by
  refine hasValidCrc_congr p fun i _ hi => byte_eq_of_front ha hb ?_
  rw [frameLength, trailingLength] at whole
  omega

theorem RawFrame.rawBytes_of_front (ha : e <+: a.bytes) (whole : a.frameLength p = e.length) : a.rawBytes p = e := by
  rw [rawBytes, whole, slice_of_front ha le_rfl, List.drop_zero, Nat.sub_zero, List.take_length]

end Sys2Proof

namespace Sys2Proof.Machine

variable {p : Config.Params} {s : State} {after : List Byte} {c : RejectCause} {f : RawFrame}

/-! The bytes that a candidate's judgement looks at. -/

theorem candidateFrame_front {k : Nat} (room : k ≤ 279) :
    Config.marker :: after.take k <+: (candidateFrame k after).bytes :=
  RawFrame.front_write (e := []) List.nil_prefix (by simp; omega)

/-- The trailing length that the judgement reads is the one that the decoder reads (R61). -/
theorem copiedHeader_trailingLength (f : RawFrame) (header : 9 ≤ after.length) :
    (copiedHeader f after).trailingLength p = (candidateFrame 9 after).trailingLength p :=
  RawFrame.trailingLength_eq_of_front (copiedHeader_front f header) (candidateFrame_front (by omega)) (by simp; omega)

theorem candidateFrame_flags (header : 9 ≤ after.length) : (candidateFrame 9 after).byte 2 = after.getD 1 0#8 := by
  rw [← copiedHeader_flags RawFrame.zero header]
  exact RawFrame.byte_eq_of_front (candidateFrame_front (by omega)) (copiedHeader_front _ header) (by simp; omega)

/-- The bytes of the candidate, if all are present: the marker and the `9 + T` bytes behind it (R61). -/
def candidateBytes (p : Config.Params) (after : List Byte) : List Byte :=
  Config.marker :: after.take (9 + (candidateFrame 9 after).trailingLength p)

theorem candidateBytes_length (present : 9 + (candidateFrame 9 after).trailingLength p ≤ after.length) :
    (candidateBytes p after).length = 10 + (candidateFrame 9 after).trailingLength p := by
  rw [candidateBytes, List.length_cons, List.length_take]
  omega

theorem occurrenceFrame_front : candidateBytes p after <+: (occurrenceFrame p after).bytes :=
  candidateFrame_front (by have := ((candidateFrame 9 after).trailingLength_bounds p).2; omega)

theorem copiedFrame_front (f : RawFrame) (present : 9 + (candidateFrame 9 after).trailingLength p ≤ after.length) :
    candidateBytes p after <+: (copiedFrame p f after).bytes := by
  have header : 9 ≤ after.length := by omega
  have hT := ((candidateFrame 9 after).trailingLength_bounds p).2
  have len : (Config.marker :: after.take 9).length = 10 := by simp; omega
  have copied := RawFrame.front_write (bs := (after.drop 9).take ((candidateFrame 9 after).trailingLength p))
    (copiedHeader_front f header) (by rw [len, List.length_take]; omega)
  rw [List.cons_append, ← List.take_add, len] at copied
  rwa [copiedFrame, copiedHeader_trailingLength f header]

/-- Whatever array holds the bytes of a candidate, they are a frame's length (R61). -/
theorem frameLength_of_candidateBytes (present : 9 + (candidateFrame 9 after).trailingLength p ≤ after.length)
    (front : candidateBytes p after <+: f.bytes) : f.frameLength p = (candidateBytes p after).length := by
  have header : Config.marker :: after.take 9 <+: candidateBytes p after := by
    rw [candidateBytes, List.take_add]
    exact List.prefix_append _ _
  rw [candidateBytes_length present, RawFrame.frameLength, RawFrame.trailingLength_eq_of_front (header.trans front)
    (candidateFrame_front (k := 9) (by omega)) (by simp; omega)]

/-- What the frame buffer held before does not show in the judgement (R115 (d)). -/
theorem copiedFrame_hasValidCrc (f : RawFrame)
    (present : 9 + (candidateFrame 9 after).trailingLength p ≤ after.length) :
    (copiedFrame p f after).hasValidCrc p = (occurrenceFrame p after).hasValidCrc p :=
  RawFrame.hasValidCrc_eq_of_front (copiedFrame_front f present) occurrenceFrame_front
    (frameLength_of_candidateBytes present (copiedFrame_front f present)).le

/-! The judgement, case by case (R193). -/

/-- What each verdict says of the bytes behind the marker. -/
inductive Judgement (p : Config.Params) (after : List Byte) : Verdict → Prop where
  /-- The header is not whole. -/
  | shortHeader (short : after.length < 9) : Judgement p after .undecided
  /-- The flags have an unsupported bit. -/
  | badFlags (header : 9 ≤ after.length) (flags : flagsAcceptable p (after.getD 1 0#8) = false) :
    Judgement p after (.rejected .iflags)
  /-- The frame is not whole. -/
  | shortFrame (header : 9 ≤ after.length) (flags : flagsAcceptable p (after.getD 1 0#8) = true)
    (short : after.length < 9 + (candidateFrame 9 after).trailingLength p) : Judgement p after .undecided
  /-- The checksum differs. -/
  | badChecksum (flags : flagsAcceptable p (after.getD 1 0#8) = true)
    (present : 9 + (candidateFrame 9 after).trailingLength p ≤ after.length)
    (crc : (occurrenceFrame p after).hasValidCrc p = false) : Judgement p after (.rejected .crc)
  /-- The frame is whole and valid. -/
  | valid (flags : flagsAcceptable p (after.getD 1 0#8) = true)
    (present : 9 + (candidateFrame 9 after).trailingLength p ≤ after.length)
    (crc : (occurrenceFrame p after).hasValidCrc p = true) : Judgement p after .valid

theorem judgement_verdict (p : Config.Params) (after : List Byte) : Judgement p after (verdict p after) := by
  unfold verdict
  split_ifs with short flags shortFrame crc
  · exact .shortHeader short
  · rw [candidateFrame_flags (by omega)] at flags
    exact .shortFrame (by omega) flags shortFrame
  · rw [candidateFrame_flags (by omega)] at flags
    exact .valid flags (by omega) crc
  · rw [candidateFrame_flags (by omega)] at flags
    exact .badChecksum flags (by omega) (Bool.eq_false_iff.mpr crc)
  · rw [candidateFrame_flags (by omega)] at flags
    exact .badFlags (by omega) (Bool.eq_false_iff.mpr flags)

/-! `DECODE` on a candidate (R143 to R146). -/

/-- A candidate whose marker stands at the front is held. -/
theorem runDecode_hold (hst : s.st = .search) (hsb : s.sb = Config.marker :: after) :
    runDecode p s = runDecode p (s.candidate .header (s.f.write 0 [Config.marker])) :=
  (Turn.hold hst hsb).runDecode

/-- If its flags are acceptable its header is copied. -/
theorem runDecode_copyHeader (hst : s.st = .search) (hsb : s.sb = Config.marker :: after) (header : 9 ≤ after.length)
    (flags : flagsAcceptable p (after.getD 1 0#8) = true) :
    runDecode p s = runDecode p (s.candidate .payload (copiedHeader s.f after)) := by
  obtain rfl : s.sb.tail = after := by rw [hsb, List.tail_cons]
  rw [← copiedHeader_flags s.f header] at flags
  have copyHeader : Turn p (s.candidate .header (s.f.write 0 [Config.marker]))
      (s.candidate .payload (copiedHeader s.f s.sb.tail)) := .copyHeader rfl header flags
  rw [runDecode_hold hst hsb, copyHeader.runDecode]

/-- If its other bytes too are present, they are copied. -/
theorem runDecode_copyFrame (hst : s.st = .search) (hsb : s.sb = Config.marker :: after)
    (flags : flagsAcceptable p (after.getD 1 0#8) = true)
    (present : 9 + (candidateFrame 9 after).trailingLength p ≤ after.length) :
    runDecode p s = runDecode p (s.candidate .verify (copiedFrame p s.f after)) := by
  rw [runDecode_copyHeader hst hsb (by omega) flags]
  obtain rfl : s.sb.tail = after := by rw [hsb, List.tail_cons]
  rw [← copiedHeader_trailingLength s.f (by omega)] at present
  have copyTrailing : Turn p (s.candidate .payload (copiedHeader s.f s.sb.tail))
      (s.candidate .verify (copiedFrame p s.f s.sb.tail)) := .copyTrailing rfl present
  exact copyTrailing.runDecode

/-- An undecided candidate is held until more bytes come (R193). -/
theorem runDecode_undecided (hst : s.st = .search) (hsb : s.sb = Config.marker :: after)
    (undecided : verdict p after = .undecided) :
    ∃ st f, st ≠ .search ∧ runDecode p s = (s.candidate st f).answer .needMore := by
  have judged := undecided ▸ judgement_verdict p after
  have htail : s.sb.tail = after := by rw [hsb, List.tail_cons]
  cases judged with
  | shortHeader short =>
    refine ⟨.header, s.f.write 0 [Config.marker], by simp, (runDecode_hold hst hsb).trans (runDecode_of_done ?_)⟩
    exact decodeStep_of_waiting (show s.sb.tail.length < 9 from htail ▸ short)
  | shortFrame header flags short =>
    refine ⟨.payload, copiedHeader s.f after, by simp,
      (runDecode_copyHeader hst hsb header flags).trans (runDecode_of_done ?_)⟩
    refine decodeStep_of_waiting (show s.sb.tail.length < 9 + (copiedHeader s.f after).trailingLength p from ?_)
    rwa [htail, copiedHeader_trailingLength s.f header]

/-- A rejected candidate costs its marker, and the same `DECODE` goes on behind it (R171, R172, R195). -/
theorem runDecode_rejected (hst : s.st = .search) (hsb : s.sb = Config.marker :: after)
    (rejected : verdict p after = .rejected c) : runDecode p s = runDecode p (s.consume.reject c) := by
  have judged := rejected ▸ judgement_verdict p after
  cases judged with
  | badFlags header flags => exact runDecode_rejectFlags hst hsb header flags
  | badChecksum flags present crc =>
    rw [← copiedFrame_hasValidCrc s.f present] at crc
    have reject : Turn p (s.candidate .verify (copiedFrame p s.f after)) (s.consume.reject .crc) :=
      .rejectChecksum rfl crc
    rw [runDecode_copyFrame hst hsb flags present, reject.runDecode]

/-- A valid candidate is returned, with the bytes that the occurrence has (R146). -/
theorem runDecode_valid (hst : s.st = .search) (hsb : s.sb = Config.marker :: after)
    (valid : verdict p after = .valid) :
    ∃ fr : RawFrame, fr.rawBytes p = (occurrenceFrame p after).rawBytes p ∧
      runDecode p s = (s.candidate .verify fr).answer (.frame fr) := by
  have judged := valid ▸ judgement_verdict p after
  cases judged with
  | valid flags present crc =>
    have copied := copiedFrame_front (p := p) s.f present
    refine ⟨copiedFrame p s.f after, ?_, ?_⟩
    · rw [RawFrame.rawBytes_of_front copied (frameLength_of_candidateBytes present copied),
        RawFrame.rawBytes_of_front occurrenceFrame_front (frameLength_of_candidateBytes present occurrenceFrame_front)]
    · rw [runDecode_copyFrame hst hsb flags present]
      exact runDecode_of_done (decodeStep_of_validCrc rfl ((copiedFrame_hasValidCrc s.f present).trans crc))

end Sys2Proof.Machine

/-- Settles O42: the frame buffer of a rejected candidate is the zero frame; nothing else of the block is touched. -/
theorem rejectionKeepsTheStream : Obligations.RejectionKeepsTheStream :=
  fun _ _ => ⟨rfl, fun i _ => RawFrame.byte_zero i, rfl, rfl, rfl, rfl, rfl, rfl⟩

/-- Settles O54: the decoder rejects where the verdict does, and the state it goes on from is written out. -/
theorem falseStartCostsOneByte : Obligations.FalseStartCostsOneByte := by
  refine ⟨fun _ => rfl, fun p s after c hst hsb rejected => ?_⟩
  rw [runDecode_rejected hst hsb rejected]
  simp [State.consume, State.reject, State.reinit, hsb, hst]
end

section
/-! PROOFS. `DRAIN` without its bound on the turns (R68), and what it returns from a decoder that searches (R175): at
each marker position it does what the verdict says. -/

open Sys2Proof Sys2Proof.Machine

namespace Sys2Proof.Machine

variable {p : Config.Params} {s s' t u : State} {b : Byte} {w : List Byte} {fs gs : List RawFrame}

/-! `DRAIN` as a relation: the turns of its loop until `NeedMore` (R68). -/

/-- `DRAIN` from `s` delivers the frames and ends in `t`. -/
inductive Drains (p : Config.Params) : State → List RawFrame → State → Prop where
  /-- `DECODE` answers `NeedMore`. -/
  | needMore {s : State} (result : (runDecode p s).result = .needMore) : Drains p s [] (runDecode p s)
  /-- `DECODE` answers a frame; it is delivered, and the rest follows after `RESET`. -/
  | frame {s t : State} {fr : RawFrame} {fs : List RawFrame} (result : (runDecode p s).result = .frame fr)
    (rest : Drains p ((runDecode p s).reinit.answer .none) fs t) : Drains p s (fr :: fs) t

/-- The loop does the same, if it has a turn for each frame and one for the `NeedMore`. -/
theorem Drains.drainLoop (h : Drains p s fs t) {k : Nat} (turns : fs.length < k) : drainLoop p k s = (fs, t) := by
  induction h generalizing k with
  | needMore result =>
    obtain ⟨k, rfl⟩ := Nat.exists_eq_add_one.mpr turns
    exact drainLoop_needMore result
  | frame result rest ih =>
    obtain ⟨k, rfl⟩ := Nat.exists_eq_add_one.mpr (Nat.zero_lt_of_lt turns)
    rw [drainLoop_frame result, ih (by simpa using turns)]

theorem Drains.unique (h : Drains p s fs t) (h' : Drains p s gs u) : fs = gs ∧ t = u := by
  have hloop := h.drainLoop (k := fs.length + gs.length + 1) (by omega)
  rw [h'.drainLoop (by omega)] at hloop
  exact ⟨(congrArg Prod.fst hloop).symm, (congrArg Prod.snd hloop).symm⟩

/-- It begins with a `DECODE`, and only what that gives matters. -/
theorem Drains.of_runDecode_eq (h : Drains p s fs t) (same : runDecode p s' = runDecode p s) : Drains p s' fs t := by
  cases h with
  | needMore result =>
    rw [← same] at result ⊢
    exact .needMore result
  | frame result rest =>
    rw [← same] at result rest
    exact .frame result rest

/-- Where it ends the decoder waits for bytes that are not there. -/
theorem Drains.waiting (h : Drains p s fs t) : Waiting p t := by
  induction h with
  | @needMore s result =>
    cases returned_runDecode p s with
    | needMore _ waiting => exact waiting
    | frame isFrame => simp [isFrame] at result
  | frame _ _ ih => exact ih

theorem runDecode_sb_length_le (p : Config.Params) (s : State) : (runDecode p s).sb.length ≤ s.sb.length := by
  obtain ⟨n, taken⟩ := runDecode_takesFront p s
  rw [taken.sb, List.length_drop]
  omega

/-- It adds nothing to the stream buffer. -/
theorem Drains.sb_length_le (h : Drains p s fs t) : t.sb.length ≤ s.sb.length := by
  induction h with
  | needMore => exact runDecode_sb_length_le p _
  | frame _ _ ih => exact ih.trans (runDecode_sb_length_le p _)

/-! The first byte of a stream, and the positions behind it (R175). -/

theorem undecidedAt_zero : undecidedAt p (b :: w) 0 = true ↔ b = Config.marker ∧ verdict p w = .undecided := by
  simp [undecidedAt, markerAt]

theorem validAt_zero : validAt p (b :: w) 0 = true ↔ b = Config.marker ∧ verdict p w = .valid := by
  simp [validAt, markerAt]

theorem holdPosition_of_decided (decided : ¬(b = Config.marker ∧ verdict p w = .undecided)) :
    holdPosition p (b :: w) = holdPosition p w + 1 := by
  rw [holdPosition_cons, if_neg (undecidedAt_zero.not.mpr decided)]

theorem validFrames_of_invalid (decided : ¬(b = Config.marker ∧ verdict p w = .undecided))
    (invalid : ¬(b = Config.marker ∧ verdict p w = .valid)) : validFrames p (b :: w) = validFrames p w := by
  rw [validFrames_cons, if_neg (undecidedAt_zero.not.mpr decided), if_neg (validAt_zero.not.mpr invalid),
    List.nil_append]

theorem validFrames_of_valid (valid : verdict p w = .valid) :
    validFrames p (Config.marker :: w) = occurrenceFrame p w :: validFrames p w := by
  rw [validFrames_cons, if_neg (undecidedAt_zero.not.mpr (by simp [valid])), if_pos (validAt_zero.mpr ⟨rfl, valid⟩),
    List.singleton_append]

/-! What `DRAIN` returns from a decoder that searches these bytes (R175). -/

/-- The frames delivered have the bytes of the valid occurrences before the first undecided marker position, and the end
is a decoder that holds that position, or searches with nothing left. -/
structure DrainedTo (p : Config.Params) (w : List Byte) (fs : List RawFrame) (t : State) : Prop where
  frames : fs.map (RawFrame.rawBytes p) = (validFrames p w).map (RawFrame.rawBytes p)
  sb : t.sb = w.drop (holdPosition p w + 1)
  st : t.st = .search ↔ holdPosition p w = w.length

/-- A byte at which no valid or undecided candidate begins only stands before the rest. -/
theorem DrainedTo.skip (h : DrainedTo p w fs t) (decided : ¬(b = Config.marker ∧ verdict p w = .undecided))
    (invalid : ¬(b = Config.marker ∧ verdict p w = .valid)) : DrainedTo p (b :: w) fs t where
  frames := by rw [h.frames, validFrames_of_invalid decided invalid]
  sb := by rw [h.sb, holdPosition_of_decided decided, List.drop_succ_cons]
  st := by rw [h.st, holdPosition_of_decided decided, List.length_cons, Nat.add_right_cancel_iff]

/-- The frame of a valid occurrence stands before the frames of the rest. -/
theorem DrainedTo.deliver {fr : RawFrame} (h : DrainedTo p w fs t) (valid : verdict p w = .valid)
    (same : fr.rawBytes p = (occurrenceFrame p w).rawBytes p) : DrainedTo p (Config.marker :: w) (fr :: fs) t where
  frames := by rw [validFrames_of_valid valid, List.map_cons, List.map_cons, h.frames, same]
  sb := by rw [h.sb, holdPosition_of_decided (by simp [valid]), List.drop_succ_cons]
  st := by rw [h.st, holdPosition_of_decided (by simp [valid]), List.length_cons, Nat.add_right_cancel_iff]

/-- An undecided candidate is held, and nothing behind it counts. -/
theorem DrainedTo.hold (held : t.st ≠ .search) (hsb : t.sb = w) (undecided : verdict p w = .undecided) :
    DrainedTo p (Config.marker :: w) [] t := by
  have first := undecidedAt_zero.mpr ⟨rfl, undecided⟩
  have position : holdPosition p (Config.marker :: w) = 0 := by rw [holdPosition_cons, if_pos first]
  refine ⟨?_, ?_, ?_⟩
  · rw [validFrames_cons, if_pos first]
  · rw [position, hsb, List.drop_succ_cons, List.drop_zero]
  · rw [position, List.length_cons]
    exact iff_of_false held (by omega)

/-- `DRAIN` from a decoder that searches, byte by byte: each is skipped, held, rejected or the marker of a frame. -/
theorem drains_of_search (p : Config.Params) (hst : s.st = .search) :
    ∃ fs t, Drains p s fs t ∧ DrainedTo p s.sb fs t ∧ fs.length ≤ s.sb.length := by
  induction hw : s.sb generalizing s with
  | nil =>
    have run : runDecode p s = s.answer .needMore :=
      runDecode_of_done (decodeStep_of_waiting (by simpa [Waiting, hst] using hw))
    refine ⟨[], _, .needMore (by rw [run]; rfl), ⟨rfl, ?_, ?_⟩, le_rfl⟩
    · rw [run, State.answer_sb, hw, List.drop_nil]
    · rw [run]
      exact iff_of_true hst rfl
  | cons b rest ih =>
    have consumed : s.consume.sb = rest := by rw [State.consume_sb, hw, List.tail_cons]
    by_cases hb : b = Config.marker
    · subst hb
      cases hv : verdict p rest with
      | undecided =>
        obtain ⟨st, f, held, run⟩ := runDecode_undecided hst hw hv
        refine ⟨[], _, .needMore (by rw [run]; rfl), .hold ?_ ?_ hv, Nat.zero_le _⟩
        · rwa [run]
        · rw [run]
          exact consumed
      | rejected c =>
        obtain ⟨fs, t, drains, drained, count⟩ := ih (s := s.consume.reject c) rfl consumed
        exact ⟨fs, t, drains.of_runDecode_eq (runDecode_rejected hst hw hv), drained.skip (by simp [hv]) (by simp [hv]),
          count.trans (Nat.le_succ _)⟩
      | valid =>
        obtain ⟨fr, same, run⟩ := runDecode_valid hst hw hv
        obtain ⟨fs, t, drains, drained, count⟩ :=
          ih (s := (runDecode p s).reinit.answer .none) rfl (by rw [run]; exact consumed)
        exact ⟨fr :: fs, t, .frame (by rw [run]; rfl) drains, drained.deliver hv same, Nat.succ_le_succ count⟩
    · obtain ⟨fs, t, drains, drained, count⟩ := ih (s := s.consume) hst consumed
      exact ⟨fs, t, drains.of_runDecode_eq (Turn.skip hst hw hb).runDecode, drained.skip (by simp [hb]) (by simp [hb]),
        count.trans (Nat.le_succ _)⟩

/-- The bound on the turns of `drain` is enough: one for a frame that is held, one for each byte, one for `NeedMore`. -/
theorem drains_drain (p : Config.Params) (s : State) : Drains p s (drain p s).1 (drain p s).2 := by
  cases returned_runDecode p s with
  | needMore result => rw [drain, drainLoop_needMore result]; exact .needMore result
  | frame result =>
    obtain ⟨fs, t, drains, -, count⟩ := drains_of_search p (s := (runDecode p s).reinit.answer .none) rfl
    have hle : fs.length ≤ s.sb.length := count.trans (runDecode_sb_length_le p s)
    have whole := Drains.frame result drains
    rw [drain, whole.drainLoop (by rw [List.length_cons]; omega)]
    exact whole

theorem Drains.drain_eq (h : Drains p s fs t) : drain p s = (fs, t) :=
  have ⟨hfs, ht⟩ := (drains_drain p s).unique h
  Prod.ext hfs ht

theorem drainedTo_drain (p : Config.Params) (hst : s.st = .search) :
    DrainedTo p s.sb (drain p s).1 (drain p s).2 := by
  obtain ⟨fs, t, drains, drained, -⟩ := drains_of_search p hst
  rwa [drains.drain_eq]

end Sys2Proof.Machine

/-- Settles O55: byte by byte `DRAIN` does what the verdict on each marker says, and stops where it must wait. -/
theorem drainReturnsExactlyTheValidOccurrences : Obligations.DrainReturnsExactlyTheValidOccurrences := by
  intro p s hst
  have drained := drainedTo_drain p hst
  exact ⟨drained.frames, drained.sb, drained.st, (drains_drain p s).waiting⟩
end

section
/-! PROOFS. Bytes may come before `DRAIN` or after it (R181): no step of `DECODE` looks behind the bytes it needs. -/

open Sys2Proof Sys2Proof.Machine

namespace Sys2Proof.Machine

variable {p : Config.Params} {s t u : State} {b : Byte} {bs : List Byte} {fs gs : List RawFrame}

/-- No turn that goes on reads the result port. -/
theorem Turn.answer (h : Turn p s t) (r : Result) : Turn p (s.answer r) (t.answer r) := by
  cases h with
  | hold hst hsb => exact .hold hst hsb
  | skip hst hsb other => exact .skip hst hsb other
  | copyHeader hst present flags => exact .copyHeader hst present flags
  | copyTrailing hst present => exact .copyTrailing hst present
  | rejectFlags hst present flags => exact .rejectFlags hst present flags
  | rejectChecksum hst crc => exact .rejectChecksum hst crc

/-- Nor does a turn that returns; it writes it. -/
theorem decodeStep_done_answer (h : decodeStep p s = .done t) (r : Result) : decodeStep p (s.answer r) = .done t := by
  obtain ⟨⟨q, rfl⟩, -⟩ := decodeStep_done h
  cases returned_of_decodeStep h with
  | needMore result waiting =>
    obtain rfl : q = .needMore := result
    exact decodeStep_of_waiting (s := s.answer r) waiting
  | frame result hst crc =>
    obtain rfl : q = .frame s.f := result
    exact decodeStep_of_validCrc (s := s.answer r) hst crc

/-- So `DECODE` does not depend on it. -/
theorem runDecode_answer (s : State) (r : Result) : runDecode p (s.answer r) = runDecode p s :=
  runDecode_induct (p := p) (I := fun u => runDecode p (s.answer r) = runDecode p (u.answer r))
    (Q := fun t => runDecode p (s.answer r) = t)
    (fun _ _ same h => same.trans ((turn_of_decodeStep h).answer r).runDecode)
    (fun _ _ same h => same.trans (runDecode_of_done (decodeStep_done_answer h r))) s rfl

theorem State.consume_append {rest : List Byte} (hsb : s.sb = b :: rest) (bs : List Byte) :
    (s.append bs).consume = s.consume.append bs := by
  simp [State.consume, State.append, hsb]

/-- A turn that goes on does the same with more bytes behind those it looks at. -/
theorem Turn.append (h : Turn p s t) (bs : List Byte) : Turn p (s.append bs) (t.append bs) := by
  have front {k : Nat} (present : k ≤ s.sb.length) : (s.sb ++ bs).take k = s.sb.take k :=
    List.take_append_of_le_length present
  have more : s.sb.length ≤ (s.append bs).sb.length := by simp
  cases h with
  | hold hst hsb =>
    have turn : Turn p (s.append bs) _ := .hold hst (by rw [State.append_sb, hsb, List.cons_append])
    rwa [State.consume_append hsb] at turn
  | skip hst hsb other =>
    have turn : Turn p (s.append bs) _ := .skip hst (by rw [State.append_sb, hsb, List.cons_append]) other
    rwa [State.consume_append hsb] at turn
  | copyHeader hst present flags =>
    have turn : Turn p (s.append bs) _ :=
      .copyHeader hst (present.trans more) (by rwa [State.append_sb, State.append_f, front present])
    rwa [State.append_sb, front present] at turn
  | rejectFlags hst present flags =>
    have turn : Turn p (s.append bs) _ :=
      .rejectFlags hst (present.trans more) (by rwa [State.append_sb, State.append_f, front present])
    rwa [State.append_sb, front present] at turn
  | copyTrailing hst present =>
    have trailing : ((s.sb ++ bs).drop 9).take (s.f.trailingLength p) = (s.sb.drop 9).take (s.f.trailingLength p) := by
      rw [List.drop_append_of_le_length (by omega), List.take_append_of_le_length (by rw [List.length_drop]; omega)]
    have turn : Turn p (s.append bs) _ := .copyTrailing hst (present.trans more)
    rwa [State.append_sb, State.append_f, trailing] at turn
  | rejectChecksum hst crc => exact .rejectChecksum hst crc

/-- `DECODE` with more bytes ends as a `DECODE` without them, and another when they have come (R181). -/
theorem runDecode_append (s : State) (bs : List Byte) :
    runDecode p (s.append bs) = runDecode p ((runDecode p s).append bs) := by
  refine runDecode_induct (p := p) (I := fun u => runDecode p (s.append bs) = runDecode p (u.append bs))
    (Q := fun t => runDecode p (s.append bs) = runDecode p (t.append bs)) ?_ ?_ s rfl
  · exact fun _ _ same h => same.trans ((turn_of_decodeStep h).append bs).runDecode
  · intro u _ same h
    obtain ⟨⟨r, rfl⟩, -⟩ := decodeStep_done h
    exact same.trans (runDecode_answer (u.append bs) r).symm

/-- A frame that `DECODE` has found it finds with more bytes behind it. -/
theorem runDecode_append_of_frame {fr : RawFrame} (result : (runDecode p s).result = .frame fr) (bs : List Byte) :
    runDecode p (s.append bs) = (runDecode p s).append bs := by
  cases returned_runDecode p s with
  | needMore isNeedMore => simp [isNeedMore] at result
  | frame isFrame hst crc =>
    rw [runDecode_append, runDecode_of_done (decodeStep_of_validCrc (s := (runDecode p s).append bs) hst crc)]
    rw [State.answer, State.append_f, ← isFrame]
    rfl

/-- `DRAIN`, then bytes, then `DRAIN` is the bytes and one `DRAIN` (R181). -/
theorem Drains.append (h : Drains p s fs t) (h' : Drains p (t.append bs) gs u) :
    Drains p (s.append bs) (fs ++ gs) u := by
  induction h with
  | needMore => exact h'.of_runDecode_eq (runDecode_append _ bs)
  | frame result _ ih =>
    have run := runDecode_append_of_frame result bs
    refine .frame (by rw [run]; exact result) ?_
    rw [run]
    exact ih h'

theorem drain_append (p : Config.Params) (s : State) (bs : List Byte) :
    drain p (s.append bs) =
      ((drain p s).1 ++ (drain p ((drain p s).2.append bs)).1, (drain p ((drain p s).2.append bs)).2) :=
  ((drains_drain p s).append (drains_drain p _)).drain_eq

theorem State.append_append (s : State) (a bs : List Byte) : (s.append a).append bs = s.append (a ++ bs) := by
  simp [State.append]

theorem feed_cons {cs : List (List Byte)} (room : fits p (s.sb.length + bs.length) = true) :
    feed p (bs :: cs) s =
      (feed p cs (drain p (s.append bs)).2).map fun r => ((drain p (s.append bs)).1 ++ r.1, r.2) := by
  rw [feed, State.appendIfFits_of_fits room]
  rfl

theorem feed_singleton (room : fits p (s.sb.length + bs.length) = true) :
    feed p [bs] s = some (drain p (s.append bs)) := by
  simp [feed, State.appendIfFits_of_fits room]

/-- Chunks that fit as a whole come to the same as the whole (R181). -/
theorem feed_flatten {c : List Byte} {cs : List (List Byte)}
    (room : fits p (s.sb.length + (c :: cs).flatten.length) = true) :
    feed p (c :: cs) s = feed p [(c :: cs).flatten] s := by
  induction cs generalizing c s with
  | nil => rw [List.flatten_cons, List.flatten_nil, List.append_nil]
  | cons d ds ih =>
    rw [feed_singleton room]
    rw [List.flatten_cons, List.length_append] at room
    have left := (drains_drain p (s.append c)).sb_length_le
    rw [State.append_sb, List.length_append] at left
    have roomRest : fits p ((drain p (s.append c)).2.sb.length + (d :: ds).flatten.length) = true :=
      fits_mono (by omega) room
    rw [feed_cons (fits_mono (by omega) room), ih roomRest, feed_singleton roomRest, Option.map_some,
      List.flatten_cons (l := c), ← State.append_append, drain_append p (s.append c)]

end Sys2Proof.Machine

/-- Settles O56: what is drained before a chunk comes and after it is what is drained when it is there at once. -/
theorem chunkingDoesNotMatter : Obligations.ChunkingDoesNotMatter := fun _ _ _ _ room => feed_flatten room
end

section
/-! PROOFS. Valid frames back to back, none with the marker among its later bytes, are the valid occurrences of their
stream (R182). -/

open Sys2Proof Sys2Proof.Machine

namespace Sys2Proof.Machine

variable {p : Config.Params} {after e noise : List Byte}

/-- Bytes that are not the marker only move the positions of what stands behind them. -/
theorem validFrames_noise (clean : Config.marker ∉ noise) (w : List Byte) :
    validFrames p (noise ++ w) = validFrames p w ∧ holdPosition p (noise ++ w) = noise.length + holdPosition p w := by
  induction noise with
  | nil => simp
  | cons b noise ih =>
    obtain ⟨other, clean⟩ := List.ne_and_not_mem_of_not_mem_cons clean
    obtain ⟨frames, position⟩ := ih clean
    constructor
    · rw [List.cons_append, validFrames_of_invalid (by simp [other.symm]) (by simp [other.symm]), frames]
    · rw [List.cons_append, holdPosition_of_decided (by simp [other.symm]), position, List.length_cons]
      omega

/-- An array whose front is a valid frame, as a whole frame (R113). -/
theorem wholeFrame_rawBytes {fr : RawFrame} (marker : fr.byte 0 = Config.marker)
    (flags : flagsAcceptable p (fr.byte 2) = true) (crc : fr.hasValidCrc p = true) : WholeFrame p (fr.rawBytes p) := by
  have hL := (fr.frameLength_bounds p).1
  have byte {i : Nat} (hi : i < 12) : (fr.rawBytes p).getD i 0#8 = fr.byte i := by
    rw [List.getD_eq_getElem?_getD, fr.rawBytes_getElem? p (by omega), Option.getD_some]
  have front : fr.rawBytes p <+: fr.bytes := List.take_prefix _ _
  refine ⟨?_, ?_, ?_, fun a ha => ?_⟩
  · rw [RawFrame.rawBytes_eq_cons, marker, List.head?_cons]
  · rw [fr.rawBytes_length, RawFrame.frameLength_of_front front (by rw [fr.rawBytes_length]; omega)]
  · rwa [byte (by omega)]
  · rw [← RawFrame.hasValidCrc_eq_of_front front ha (fr.rawBytes_length p).ge, crc]

theorem verdict_eq_valid (flags : flagsAcceptable p (after.getD 1 0#8) = true)
    (present : 9 + (candidateFrame 9 after).trailingLength p ≤ after.length)
    (crc : (occurrenceFrame p after).hasValidCrc p = true) : verdict p after = .valid := by
  rw [← candidateFrame_flags (by omega)] at flags
  rw [verdict, if_neg (by omega), if_pos flags, if_neg (by omega)]
  exact if_pos crc

/-- Its occurrence is valid, whatever stands behind it in the stream, and is the same bytes. -/
theorem WholeFrame.occurrence (h : WholeFrame p (Config.marker :: e)) (w : List Byte) :
    verdict p (e ++ w) = .valid ∧ (occurrenceFrame p (e ++ w)).rawBytes p = Config.marker :: e := by
  have header : 9 ≤ e.length := by
    have hlen := h.length
    rw [List.length_cons] at hlen
    omega
  have hT : 10 + (candidateFrame 9 (e ++ w)).trailingLength p = (Config.marker :: e).length := by
    refine h.frameLength ?_
    rw [List.take_succ_cons, ← List.take_append_of_le_length header (l₂ := w)]
    exact candidateFrame_front (by omega)
  rw [List.length_cons] at hT
  have bytes : candidateBytes p (e ++ w) = Config.marker :: e := by
    rw [candidateBytes, show 9 + (candidateFrame 9 (e ++ w)).trailingLength p = e.length by omega,
      List.take_append_of_le_length le_rfl, List.take_length]
  have front : Config.marker :: e <+: (occurrenceFrame p (e ++ w)).bytes := bytes ▸ occurrenceFrame_front
  have flags : flagsAcceptable p ((e ++ w).getD 1 0#8) = true := by
    rw [List.getD_append _ _ _ _ (by omega)]
    exact h.flags
  exact ⟨verdict_eq_valid flags (by rw [List.length_append]; omega) (h.crc _ front), h.rawBytes front⟩

/-- Such a frame, none of whose later bytes is the marker, comes before what the rest of the stream gives. -/
theorem WholeFrame.validFrames_append (h : WholeFrame p e) (clean : Config.marker ∉ e.tail) (w : List Byte) :
    (validFrames p (e ++ w)).map (RawFrame.rawBytes p) = e :: (validFrames p w).map (RawFrame.rawBytes p) ∧
      holdPosition p (e ++ w) = e.length + holdPosition p w := by
  obtain ⟨e, rfl⟩ := List.head?_eq_some_iff.mp h.marker
  obtain ⟨valid, raw⟩ := h.occurrence w
  obtain ⟨frames, position⟩ := validFrames_noise (p := p) clean w
  rw [List.tail_cons] at frames position
  rw [List.cons_append, validFrames_of_valid valid, holdPosition_of_decided (by simp [valid]), List.map_cons, raw,
    frames, position, List.length_cons]
  exact ⟨rfl, by omega⟩

/-- No byte of the frame behind its first is the marker, as a list of bytes. -/
theorem marker_not_mem_rawBytes_tail {fr : RawFrame}
    (clean : ∀ i, 1 ≤ i → i < fr.frameLength p → fr.byte i ≠ Config.marker) :
    Config.marker ∉ (fr.rawBytes p).tail := by
  intro mem
  obtain ⟨i, hget⟩ := List.mem_iff_getElem?.mp mem
  rw [← List.drop_one, List.getElem?_drop] at hget
  obtain ⟨hi, -⟩ := List.getElem?_eq_some_iff.mp hget
  rw [fr.rawBytes_length] at hi
  rw [fr.rawBytes_getElem? p hi, Option.some.injEq] at hget
  exact clean (1 + i) (by omega) hi hget

/-- Frames back to back are the valid occurrences of the stream, and leave no marker undecided (R182). -/
theorem validFrames_backToBack {frames : List RawFrame} (whole : ∀ fr ∈ frames, WholeFrame p (fr.rawBytes p))
    (clean : ∀ fr ∈ frames, Config.marker ∉ (fr.rawBytes p).tail) :
    (validFrames p (frames.flatMap (RawFrame.rawBytes p))).map (RawFrame.rawBytes p) =
        frames.map (RawFrame.rawBytes p) ∧
      holdPosition p (frames.flatMap (RawFrame.rawBytes p)) = (frames.flatMap (RawFrame.rawBytes p)).length := by
  induction frames with
  | nil => exact ⟨rfl, rfl⟩
  | cons fr frames ih =>
    rw [List.forall_mem_cons] at whole clean
    obtain ⟨first, whole⟩ := whole
    obtain ⟨firstClean, clean⟩ := clean
    obtain ⟨restFrames, restPosition⟩ := ih whole clean
    obtain ⟨occurrences, position⟩ := first.validFrames_append firstClean (frames.flatMap (RawFrame.rawBytes p))
    rw [List.flatMap_cons, occurrences, position, restFrames, restPosition, List.length_append]
    exact ⟨rfl, rfl⟩

end Sys2Proof.Machine

/-- Settles O57: the frames are the valid occurrences of their stream, and `DRAIN` returns those. -/
theorem backToBackFramesComeOutInOrder : Obligations.BackToBackFramesComeOutInOrder := by
  intro p s frames hst hsb good
  have drained := drainedTo_drain p (s := s.append (frames.flatMap (RawFrame.rawBytes p))) hst
  obtain ⟨occurrences, position⟩ := validFrames_backToBack (p := p) (frames := frames)
    (fun fr hfr => have ⟨marker, flags, crc, _⟩ := good fr hfr; wholeFrame_rawBytes marker flags crc)
    (fun fr hfr => have ⟨_, _, _, clean⟩ := good fr hfr; marker_not_mem_rawBytes_tail clean)
  rw [State.append_sb, hsb, List.nil_append] at drained
  refine ⟨drained.frames.trans occurrences, drained.st.mpr position, ?_⟩
  rw [drained.sb, position, List.drop_eq_nil_iff]
  omega
end

section
/-! PROOFS. A byte that is no code of R65's table has no row in it, and a command without a row is refused by name
(R201 (e), D16). -/

open Sys2Proof Sys2Proof.Machine

namespace Sys2Proof

variable {p : Config.Params} {code : Byte} {operands : List Byte}

/-- The codes of R65's table lie in its four ranges (D2). -/
theorem code_ranges_of_mem_cmd8Table :
    ∀ listed ∈ cmd8Table.map Prod.fst,
      (0x01#8 ≤ listed ∧ listed ≤ 0x03#8) ∨ (0x10#8 ≤ listed ∧ listed ≤ 0x13#8) ∨
        (0x20#8 ≤ listed ∧ listed ≤ 0x2D#8) ∨ (0x30#8 ≤ listed ∧ listed ≤ 0x3A#8) := by
  decide

theorem lookup_eq_none_of_not_mem_codes (unlisted : code ∉ cmd8Table.map Prod.fst) :
    cmd8Table.lookup code = none := by
  rw [List.lookup_eq_none_iff]
  intro row hrow
  have other : code ≠ row.1 := fun same => unlisted (same ▸ List.mem_map_of_mem hrow)
  exact bne_iff_ne.mpr other

/-- A command without a row in the table is not decoded (R65). -/
theorem decodePort_of_lookup_eq_none (noRow : cmd8Table.lookup code = none) :
    decodePort p .cmd8 (code :: operands) = .error (.unknownCommand code) := by
  simp only [decodePort, decodeCommand, noRow]

namespace Machine

theorem step_of_unknownCommand {s : State}
    (h : decodePort Config.params s.port.format s.port.bytes = .error (.unknownCommand code)) :
    step s = .refused (.unknownCommand code) := by
  simp only [step, fetch, h]

end Machine

end Sys2Proof

/-- Settles O4: a code outside the four ranges has no row in the table, so the fetch refuses it. -/
theorem unlistedCommandCodeIsRefused : Obligations.UnlistedCommandCodeIsRefused := by
  intro s code rest hport decoder generator accessors mutators
  have unlisted : code ∉ cmd8Table.map Prod.fst := fun listed => by
    obtain h | h | h | h := code_ranges_of_mem_cmd8Table code listed
    · exact decoder h
    · exact generator h
    · exact accessors h
    · exact mutators h
  apply step_of_unknownCommand
  rw [hport]
  exact decodePort_of_lookup_eq_none (lookup_eq_none_of_not_mem_codes unlisted)
end

section
/-! PROOFS. With no operation issued the fetch is idle, and an idle step answers the state it began in (R220). -/

open Sys2Proof Sys2Proof.Machine

namespace Sys2Proof.Machine

variable {p : Config.Params} {s : State}

theorem fetch_of_port_empty (h : s.port.bytes = []) : fetch p s = .idle := by
  simp only [fetch, h, decodePort]

/-- A command not yet wholly presented has not been issued (log 10). -/
theorem fetch_of_truncated (h : decodePort p s.port.format s.port.bytes = .error .truncated) :
    fetch p s = .idle := by
  simp only [fetch, h]

theorem step_of_fetch_idle (h : fetch Config.params s = .idle) : step s = .next s := by
  simp only [step, h]

end Sys2Proof.Machine

/-- Settles O6: in both cases the fetch is idle. -/
theorem stepWithoutOperationDoesNothing : Obligations.StepWithoutOperationDoesNothing := fun _ =>
  ⟨fun nothingPresented => step_of_fetch_idle (fetch_of_port_empty nothingPresented),
    fun incomplete => step_of_fetch_idle (fetch_of_truncated incomplete)⟩
end
